-- ==== Sys2Proof/Word.lean ====
section
/-! DEFINITION. The word types of the hardware: bytes, 16-bit words, and register and key indices
(spec/00_scope.md R7, R10). -/

namespace Sys2Proof

/-- The 8-bit unit of registers, timers and memory (10_state.md R21, 20_memory.md R51). -/
abbrev Byte := BitVec 8

/-- 16 bits: instruction words, `PC`, `I`, stack entries (10_state.md R24, R25, R28). -/
abbrev Word := BitVec 16

/-- A general register's number, 0 to 15: the `x` and `y` fields (00_scope.md R11). -/
abbrev Reg := Fin 16

/-- A key's number, 0x0 to 0xF (10_state.md R35). -/
abbrev Key := Fin 16

end Sys2Proof
end

