-- ==== Sys2Proof/Machine/Flags.lean ====
section
/-! DEFINITION. The values an instruction writes to `VF` as a flag (10_state.md R22; 41_load_alu.md R120). -/

namespace Sys2Proof.Machine

/-- A flag as a byte: 1 or 0. -/
def flagByte (b : Bool) : Byte := if b then 1 else 0

/-- ADD's carry: 1 when the sum exceeds 255 (R131). -/
def carryFlag (a b : Byte) : Byte := flagByte (a.toNat + b.toNat > 255)

/-- The not-borrow flag of `a - b`: 1 when `a >= b`, unsigned (R120, R132, R136). -/
def notBorrowFlag (a b : Byte) : Byte := flagByte (a.toNat ≥ b.toNat)

/-- The bit SHR shifts out, `src[0]` (R135). -/
def lowBitFlag (src : Byte) : Byte := flagByte (src.getLsbD 0)

/-- The bit SHL shifts out, `src[7]` (R139). -/
def highBitFlag (src : Byte) : Byte := flagByte (src.getLsbD 7)

/-- What OR, AND and XOR write to `VF` (R128 to R130). -/
def clearedFlag : Byte := 0

/-- DRW's collision flag (43_display.md R177). -/
def collisionFlag (hit : Bool) : Byte := flagByte hit

end Sys2Proof.Machine
end

