-- ==== Sys2Proof/Syntax.lean ====
section
/-! DEFINITION. The 34 instructions, one constructor per row of spec/opcode_table.json
(30_encoding.md R73). Operands are the fields of 00_scope.md R11: `x`, `y` registers, `kk` a byte, `nnn` an
address held in 16 bits (R72: zero-extended), `n` a sprite height. -/

namespace Sys2Proof

inductive Instr where
  | cls
  | ret
  | jp    (nnn : Word)
  | call  (nnn : Word)
  | sei   (x : Reg) (kk : Byte)
  | snei  (x : Reg) (kk : Byte)
  | se    (x y : Reg)
  | ldi   (x : Reg) (kk : Byte)
  | addi  (x : Reg) (kk : Byte)
  | ld    (x y : Reg)
  | or    (x y : Reg)
  | and   (x y : Reg)
  | xor   (x y : Reg)
  | add   (x y : Reg)
  | sub   (x y : Reg)
  | shr   (x y : Reg)
  | subn  (x y : Reg)
  | shl   (x y : Reg)
  | sne   (x y : Reg)
  | ldix  (nnn : Word)
  | jpv0  (nnn : Word)
  | rnd   (x : Reg) (kk : Byte)
  | drw   (x y : Reg) (n : Nat)
  | skp   (x : Reg)
  | sknp  (x : Reg)
  | lddt  (x : Reg)
  | wkey  (x : Reg)
  | stdt  (x : Reg)
  | stst  (x : Reg)
  | addix (x : Reg)
  | font  (x : Reg)
  | bcd   (x : Reg)
  | stm   (x : Reg)
  | ldm   (x : Reg)
deriving DecidableEq, Repr

end Sys2Proof
end

