-- ==== Sys2Proof/WellFormed.lean ====
section
/-! DEFINITION. Which instruction terms the encoding has room for (30_encoding.md R72): `nnn` is a 12-bit
address, `n` a 4-bit count. The other operands cannot be ill-formed: their types are their ranges. -/

namespace Sys2Proof

/-- `nnn` is "an unsigned 12-bit address 0 to 4095" (R72). -/
def addressFits (nnn : Word) : Bool := nnn.toNat < 4096

/-- `n` is "an unsigned count 0 to 15" (R72). -/
def heightFits (n : Nat) : Bool := n < 16

def wellFormed : Instr → Bool
  | .jp nnn   => addressFits nnn
  | .call nnn => addressFits nnn
  | .ldix nnn => addressFits nnn
  | .jpv0 nnn => addressFits nnn
  | .drw _ _ n => heightFits n
  | .cls | .ret | .sei _ _ | .snei _ _ | .se _ _ | .ldi _ _ | .addi _ _ | .ld _ _ | .or _ _ | .and _ _
  | .xor _ _ | .add _ _ | .sub _ _ | .shr _ _ | .subn _ _ | .shl _ _ | .sne _ _ | .rnd _ _ | .skp _
  | .sknp _ | .lddt _ | .wkey _ | .stdt _ | .stst _ | .addix _ | .font _ | .bcd _ | .stm _ | .ldm _ => true

end Sys2Proof
end

