-- ==== Sys2Proof/Decode.lean ====
section
/-! DEFINITION. From words and bytes to instructions, and back (30_encoding.md R70 to R76): the decoder, total on
any bytes and rejecting by name; the encoder; and the opcode map R73 as rows of mask and match. -/

namespace Sys2Proof

/-! ### Words, bytes and fields -/

/-- `v[hi:lo]`, the bit slice as an unsigned number (00_scope.md R10). -/
def bits (v : Word) (hi lo : Nat) : Nat := v.toNat / 2 ^ lo % 2 ^ (hi - lo + 1)

/-- A word from its two bytes, the high byte first (20_memory.md R54). -/
def wordOfBytes (hi lo : Byte) : Word := BitVec.ofNat 16 (hi.toNat * 256 + lo.toNat)

/-- The byte stored at the lower address (R54). -/
def highByte (w : Word) : Byte := BitVec.ofNat 8 (w.toNat / 256)

/-- The byte stored at the higher address (R54). -/
def lowByte (w : Word) : Byte := BitVec.ofNat 8 (w.toNat % 256)

/-- `x = op[11:8]` (00_scope.md R11). -/
def fieldX (op : Word) : Reg := Fin.ofNat 16 (bits op 11 8)

/-- `y = op[7:4]` (R11). -/
def fieldY (op : Word) : Reg := Fin.ofNat 16 (bits op 7 4)

/-- `n = op[3:0]` (R11). -/
def fieldN (op : Word) : Nat := bits op 3 0

/-- `kk = op[7:0]` (R11). -/
def fieldKK (op : Word) : Byte := BitVec.ofNat 8 (bits op 7 0)

/-- `nnn = op[11:0]`, zero-extended to 16 bits (R11, R72). -/
def fieldNNN (op : Word) : Word := BitVec.ofNat 16 (bits op 11 0)

/-! ### The decoder -/

/-- Why bytes are no instruction: fewer than two bytes, or an illegal word of one of the six high nibbles of
30_encoding.md R75. -/
inductive DecodeReject where
  | truncated
  | illegal0
  | illegal5
  | illegal8
  | illegal9
  | illegalE
  | illegalF
deriving DecidableEq, Repr

/-- The instructions of high nibble 8, by `op[3:0]` (R74). -/
def decode8 (op : Word) : Except DecodeReject Instr :=
  match bits op 3 0 with
  | 0x0 => .ok (.ld   (fieldX op) (fieldY op))
  | 0x1 => .ok (.or   (fieldX op) (fieldY op))
  | 0x2 => .ok (.and  (fieldX op) (fieldY op))
  | 0x3 => .ok (.xor  (fieldX op) (fieldY op))
  | 0x4 => .ok (.add  (fieldX op) (fieldY op))
  | 0x5 => .ok (.sub  (fieldX op) (fieldY op))
  | 0x6 => .ok (.shr  (fieldX op) (fieldY op))
  | 0x7 => .ok (.subn (fieldX op) (fieldY op))
  | 0xE => .ok (.shl  (fieldX op) (fieldY op))
  | _   => .error .illegal8

/-- The instructions of high nibble E, by `op[7:0]` (R74). -/
def decodeE (op : Word) : Except DecodeReject Instr :=
  match bits op 7 0 with
  | 0x9E => .ok (.skp  (fieldX op))
  | 0xA1 => .ok (.sknp (fieldX op))
  | _    => .error .illegalE

/-- The instructions of high nibble F, by `op[7:0]` (R74). -/
def decodeF (op : Word) : Except DecodeReject Instr :=
  match bits op 7 0 with
  | 0x07 => .ok (.lddt  (fieldX op))
  | 0x0A => .ok (.wkey  (fieldX op))
  | 0x15 => .ok (.stdt  (fieldX op))
  | 0x18 => .ok (.stst  (fieldX op))
  | 0x1E => .ok (.addix (fieldX op))
  | 0x29 => .ok (.font  (fieldX op))
  | 0x33 => .ok (.bcd   (fieldX op))
  | 0x55 => .ok (.stm   (fieldX op))
  | 0x65 => .ok (.ldm   (fieldX op))
  | _    => .error .illegalF

/-- The decoding algorithm of 30_encoding.md R74, a function of the word alone (R76). -/
def decodeWord (op : Word) : Except DecodeReject Instr :=
  match bits op 15 12 with
  | 0x0 => if op = 0x00E0 then .ok .cls else if op = 0x00EE then .ok .ret else .error .illegal0
  | 0x1 => .ok (.jp   (fieldNNN op))
  | 0x2 => .ok (.call (fieldNNN op))
  | 0x3 => .ok (.sei  (fieldX op) (fieldKK op))
  | 0x4 => .ok (.snei (fieldX op) (fieldKK op))
  | 0x5 => if bits op 3 0 = 0 then .ok (.se (fieldX op) (fieldY op)) else .error .illegal5
  | 0x6 => .ok (.ldi  (fieldX op) (fieldKK op))
  | 0x7 => .ok (.addi (fieldX op) (fieldKK op))
  | 0x8 => decode8 op
  | 0x9 => if bits op 3 0 = 0 then .ok (.sne (fieldX op) (fieldY op)) else .error .illegal9
  | 0xA => .ok (.ldix (fieldNNN op))
  | 0xB => .ok (.jpv0 (fieldNNN op))
  | 0xC => .ok (.rnd  (fieldX op) (fieldKK op))
  | 0xD => .ok (.drw  (fieldX op) (fieldY op) (fieldN op))
  | 0xE => decodeE op
  | _   => decodeF op

/-- Decode the instruction at the head of a list of bytes: the instruction and the bytes after it. Every instruction
is exactly two bytes, the high byte first (R70). -/
def decode : List Byte → Except DecodeReject (Instr × List Byte)
  | hi :: lo :: rest =>
    match decodeWord (wordOfBytes hi lo) with
    | .ok i    => .ok (i, rest)
    | .error r => .error r
  | [_] => .error .truncated
  | []  => .error .truncated

/-! ### The encoder, format by format (R71) -/

/-- Format `A`: opcode, `nnn`. -/
def encodeA (opc : Nat) (nnn : Word) : Word := BitVec.ofNat 16 (opc * 4096 + nnn.toNat)

/-- Format `XK`: opcode, `x`, `kk`. -/
def encodeXK (opc : Nat) (x : Reg) (kk : Byte) : Word := BitVec.ofNat 16 (opc * 4096 + x.val * 256 + kk.toNat)

/-- Formats `XY` and `XYN`: opcode, `x`, `y`, and the low nibble (a sub-opcode, or `n`). -/
def encodeXY (opc : Nat) (x y : Reg) (low : Nat) : Word :=
  BitVec.ofNat 16 (opc * 4096 + x.val * 256 + y.val * 16 + low)

/-- Format `X`: opcode, `x`, and the sub-opcode in the low byte. -/
def encodeX (opc : Nat) (x : Reg) (low : Nat) : Word := BitVec.ofNat 16 (opc * 4096 + x.val * 256 + low)

/-- The word of an instruction (30_encoding.md R73, R82). -/
def encode : Instr → Word
  | .cls        => 0x00E0
  | .ret        => 0x00EE
  | .jp nnn     => encodeA  0x1 nnn
  | .call nnn   => encodeA  0x2 nnn
  | .sei x kk   => encodeXK 0x3 x kk
  | .snei x kk  => encodeXK 0x4 x kk
  | .se x y     => encodeXY 0x5 x y 0x0
  | .ldi x kk   => encodeXK 0x6 x kk
  | .addi x kk  => encodeXK 0x7 x kk
  | .ld x y     => encodeXY 0x8 x y 0x0
  | .or x y     => encodeXY 0x8 x y 0x1
  | .and x y    => encodeXY 0x8 x y 0x2
  | .xor x y    => encodeXY 0x8 x y 0x3
  | .add x y    => encodeXY 0x8 x y 0x4
  | .sub x y    => encodeXY 0x8 x y 0x5
  | .shr x y    => encodeXY 0x8 x y 0x6
  | .subn x y   => encodeXY 0x8 x y 0x7
  | .shl x y    => encodeXY 0x8 x y 0xE
  | .sne x y    => encodeXY 0x9 x y 0x0
  | .ldix nnn   => encodeA  0xA nnn
  | .jpv0 nnn   => encodeA  0xB nnn
  | .rnd x kk   => encodeXK 0xC x kk
  | .drw x y n  => encodeXY 0xD x y n
  | .skp x      => encodeX  0xE x 0x9E
  | .sknp x     => encodeX  0xE x 0xA1
  | .lddt x     => encodeX  0xF x 0x07
  | .wkey x     => encodeX  0xF x 0x0A
  | .stdt x     => encodeX  0xF x 0x15
  | .stst x     => encodeX  0xF x 0x18
  | .addix x    => encodeX  0xF x 0x1E
  | .font x     => encodeX  0xF x 0x29
  | .bcd x      => encodeX  0xF x 0x33
  | .stm x      => encodeX  0xF x 0x55
  | .ldm x      => encodeX  0xF x 0x65

/-- The instruction's bytes as they lie in memory, the high byte at the lower address (R54, R70). -/
def encodeBytes (i : Instr) : List Byte := [highByte (encode i), lowByte (encode i)]

/-! ### The opcode map as rows of mask and match (R73) -/

/-- The fixed bits of an instruction's row: `mask` says which bits are fixed, `value` what they are. -/
structure OpcodeRow where
  mask  : Word
  value : Word
deriving DecidableEq, Repr

/-- The row of the opcode map R73 that an instruction stands in. -/
def opcodeRow : Instr → OpcodeRow
  | .cls       => ⟨0xFFFF, 0x00E0⟩
  | .ret       => ⟨0xFFFF, 0x00EE⟩
  | .jp _      => ⟨0xF000, 0x1000⟩
  | .call _    => ⟨0xF000, 0x2000⟩
  | .sei _ _   => ⟨0xF000, 0x3000⟩
  | .snei _ _  => ⟨0xF000, 0x4000⟩
  | .se _ _    => ⟨0xF00F, 0x5000⟩
  | .ldi _ _   => ⟨0xF000, 0x6000⟩
  | .addi _ _  => ⟨0xF000, 0x7000⟩
  | .ld _ _    => ⟨0xF00F, 0x8000⟩
  | .or _ _    => ⟨0xF00F, 0x8001⟩
  | .and _ _   => ⟨0xF00F, 0x8002⟩
  | .xor _ _   => ⟨0xF00F, 0x8003⟩
  | .add _ _   => ⟨0xF00F, 0x8004⟩
  | .sub _ _   => ⟨0xF00F, 0x8005⟩
  | .shr _ _   => ⟨0xF00F, 0x8006⟩
  | .subn _ _  => ⟨0xF00F, 0x8007⟩
  | .shl _ _   => ⟨0xF00F, 0x800E⟩
  | .sne _ _   => ⟨0xF00F, 0x9000⟩
  | .ldix _    => ⟨0xF000, 0xA000⟩
  | .jpv0 _    => ⟨0xF000, 0xB000⟩
  | .rnd _ _   => ⟨0xF000, 0xC000⟩
  | .drw _ _ _ => ⟨0xF000, 0xD000⟩
  | .skp _     => ⟨0xF0FF, 0xE09E⟩
  | .sknp _    => ⟨0xF0FF, 0xE0A1⟩
  | .lddt _    => ⟨0xF0FF, 0xF007⟩
  | .wkey _    => ⟨0xF0FF, 0xF00A⟩
  | .stdt _    => ⟨0xF0FF, 0xF015⟩
  | .stst _    => ⟨0xF0FF, 0xF018⟩
  | .addix _   => ⟨0xF0FF, 0xF01E⟩
  | .font _    => ⟨0xF0FF, 0xF029⟩
  | .bcd _     => ⟨0xF0FF, 0xF033⟩
  | .stm _     => ⟨0xF0FF, 0xF055⟩
  | .ldm _     => ⟨0xF0FF, 0xF065⟩

/-- One instruction of each row, in the order of R73. -/
def rowInstrs : List Instr :=
  [.cls, .ret, .jp 0, .call 0, .sei 0 0, .snei 0 0, .se 0 0, .ldi 0 0, .addi 0 0] ++
  [.ld 0 0, .or 0 0, .and 0 0, .xor 0 0, .add 0 0, .sub 0 0, .shr 0 0, .subn 0 0, .shl 0 0, .sne 0 0] ++
  [.ldix 0, .jpv0 0, .rnd 0 0, .drw 0 0 0, .skp 0, .sknp 0] ++
  [.lddt 0, .wkey 0, .stdt 0, .stst 0, .addix 0, .font 0, .bcd 0, .stm 0, .ldm 0]

/-- The opcode map of R73: its 34 rows. -/
def opcodeMap : List OpcodeRow := rowInstrs.map opcodeRow

/-! ### Words as spec/opcode_table.json numbers them -/

/-- The two bytes of the table word `w`, as the hardware stores them: the high byte first; bits of `w` from `nbits` up
are 0. -/
def tableBytes (nbits w : Nat) : List Byte :=
  [highByte (BitVec.ofNat 16 (w % 2 ^ nbits)), lowByte (BitVec.ofNat 16 (w % 2 ^ nbits))]

/-- The instruction the decoder reads from the table word `w`. -/
def decodeTableWord (nbits w : Nat) : Option Instr :=
  match decode (tableBytes nbits w) with
  | .ok (i, _) => some i
  | .error _   => none

end Sys2Proof
end

