-- ==== Sys2Proof/Config.lean ====
section
/-! DEFINITION. The construction parameters of the block (00_scope.md R8, R9) and its one free value,
the random input (41_load_alu.md R141). -/

namespace Sys2Proof

/-- The font table's 80 bytes, the parameter `FONT[0..79]` (00_scope.md R9 (a), 20_memory.md R62). -/
abbrev Font := Vector Byte 80

/-- The parameter `TICK_ORDER`: which of `STEP` and `TICK` comes first in a tick interval
(00_scope.md R9 (c), 60_exceptions.md R233). -/
inductive TickOrder where
  | stepFirst
  | tickFirst
deriving DecidableEq, Repr

/-- The parameters fixed when the machine is constructed and constant for a run. -/
structure Config where
  /-- `QUIRK_SHIFT_IN_PLACE` (R8): SHR and SHL shift `Vx` in place. -/
  shiftInPlace : Bool
  /-- `QUIRK_INDEX_AUTOINC` (R8): STM and LDM add `x + 1` to `I`. -/
  indexAutoInc : Bool
  /-- `QUIRK_SPRITE_WRAP` (R8): DRW wraps every pixel. -/
  spriteWrap   : Bool
  /-- `TICK_ORDER` (R9 (c)). -/
  tickOrder    : TickOrder
  /-- `FONT` (R9 (a)). -/
  font         : Font
deriving DecidableEq, Repr

/-- FREE VALUE. The random byte that the `k`-th executed RND instruction draws (41_load_alu.md R141: "the
hardware promises nothing about it"; log entry 6). No body: nothing is known of it. -/
opaque Config.freeRnd : Nat → Byte

end Sys2Proof
end

