-- ==== Sys2Proof/Machine/Font.lean ====
section
/-! DEFINITION. The default font table and the default construction parameters (20_memory.md R61, R62;
00_scope.md R8, R9). -/

namespace Sys2Proof.Machine

/-- PRESUMED (log entry 5): the 16 glyphs of 5 rows that 20_memory.md R62 gives as the default of `FONT`, from
general knowledge and not from the source; glyph `g` is the `g`-th. -/
def defaultFontBytes : List Byte :=
  [0xF0, 0x90, 0x90, 0x90, 0xF0] ++ [0x20, 0x60, 0x20, 0x20, 0x70] ++
  [0xF0, 0x10, 0xF0, 0x80, 0xF0] ++ [0xF0, 0x10, 0xF0, 0x10, 0xF0] ++
  [0x90, 0x90, 0xF0, 0x10, 0x10] ++ [0xF0, 0x80, 0xF0, 0x10, 0xF0] ++
  [0xF0, 0x80, 0xF0, 0x90, 0xF0] ++ [0xF0, 0x10, 0x20, 0x40, 0x40] ++
  [0xF0, 0x90, 0xF0, 0x90, 0xF0] ++ [0xF0, 0x90, 0xF0, 0x10, 0xF0] ++
  [0xF0, 0x90, 0xF0, 0x90, 0x90] ++ [0xE0, 0x90, 0xE0, 0x90, 0xE0] ++
  [0xF0, 0x80, 0x80, 0x80, 0xF0] ++ [0xE0, 0x90, 0x90, 0x90, 0xE0] ++
  [0xF0, 0x80, 0xF0, 0x80, 0xF0] ++ [0xF0, 0x80, 0xF0, 0x80, 0x80]

/-- The default font table. -/
def defaultFont : Font := Vector.mk defaultFontBytes.toArray rfl

/-- The default of every parameter: the three quirks false (R8), `STEP` before `TICK` (R9 (c), R233), the default
font (R62). DESIGN CHOICE (log entry 4): State.reset is a machine constructed with these. -/
def defaultConfig : Config :=
  { shiftInPlace := false, indexAutoInc := false, spriteWrap := false, tickOrder := .stepFirst,
    font := defaultFont }

end Sys2Proof.Machine
end

