-- ==== Sys2Proof/Machine/State.lean ====
section
/-! DEFINITION. The state of the block, exactly the pieces of 10_state.md R20, with three fields of the model's own
(`started`, `draws`, `config`), its fault and refusal reasons, and its value after reset (R40). -/

namespace Sys2Proof.Machine

/-- The six fatal kinds of 60_exceptions.md R211. A fault is ENTERED, not answered: `raise` (Machine/Ops.lean) latches
its kind in `State.fault` and gives a NEXT state, as R214 says (log entry 3); no step ever answers `Outcome.fault`. -/
inductive Fault where
  /-- Raised by the decode phase of `STEP`: the word matches no row of the opcode map (R212). Safe: the spec's own. -/
  | decodeError
  /-- Raised by RET with `SP = 0` (R213). Safe: the spec's own. -/
  | stackUnderflow
  /-- Raised by CALL with `SP = 16` (R213). Safe: the spec's own. -/
  | stackOverflow
  /-- Raised by `LOAD` of more than 3584 bytes (R217). Safe: the spec's own. -/
  | programTooLarge
  /-- Raised by `KEY_SET`, `KEY_CLEAR`, `KEY_READ`, SKP and SKNP on a key index above 15 (R216). Safe: the spec's own. -/
  | invalidKeyIndex
  /-- Raised by fetch, BCD, STM, LDM and DRW when an addressed byte lies above 0xFFF (R215). Safe: the spec's own. -/
  | addressOutOfRange
deriving DecidableEq, Repr

/-- The numeric code of a kind (R211, D9); 0 means no fault. -/
def Fault.code : Option Fault → Nat
  | none                    => 0
  | some .decodeError       => 1
  | some .stackUnderflow    => 2
  | some .stackOverflow     => 3
  | some .programTooLarge   => 4
  | some .invalidKeyIndex   => 5
  | some .addressOutOfRange => 6

/-- Where the model gives no meaning. -/
inductive Refusal where
  /-- An arm of exec whose instruction has no meaning yet. No arm answers it in this model. Safe. -/
  | notModelled (mnemonic : String)
  /-- Answered by the operation `LOAD` after the first `STEP` of a run, or while halted: the spec gives it no meaning and
  says "treatment `refuse`" (20_memory.md R68, 60_exceptions.md R221, U10). Safe. -/
  | lateLoad
deriving DecidableEq, Repr

/-- The record `FAULT` (10_state.md R39): `kind` none means that no fault has ended the run. -/
structure FaultRecord where
  kind : Option Fault
  addr : Word
  op   : Word
deriving DecidableEq, Repr

/-- The bytes of `MEM` that differ from the reset contents, in canonical form (`Memory.wf`, Machine/Ops.lean). -/
abbrev Memory := List Host.Cell

/-- `FB[r][c]`: 32 rows of 64 pixels, true for 1 (10_state.md R33, R34). -/
abbrev Framebuffer := Vector (Vector Bool 64) 32

structure State where
  /-- `V[0]`..`V[15]` (R21). -/
  v       : Vector Byte 16
  /-- `I` (R24). -/
  i       : Word
  /-- `PC` (R25). -/
  pc      : Word
  /-- `STACK[0]`..`STACK[15]` (R28). -/
  stack   : Vector Word 16
  /-- `SP`, 0 to 16 (R29). -/
  sp      : Fin 17
  /-- `DT` (R30). -/
  dt      : Byte
  /-- `ST` (R31). -/
  st      : Byte
  /-- `MEM` (R32). -/
  mem     : Memory
  /-- `FB` (R33). -/
  fb      : Framebuffer
  /-- `KEY[0]`..`KEY[15]` (R35). -/
  key     : Vector Bool 16
  /-- `AWAIT` (R38). -/
  await   : Bool
  /-- `FAULT` (R39). -/
  fault   : FaultRecord
  /-- The model's own (log entry 7): a `STEP` of this run has completed, so `LOAD` has no meaning any more (R68). -/
  started : Bool
  /-- The model's own (log entry 6): how many bytes RND has drawn; indexes the free value `Config.freeRnd`. -/
  draws   : Nat
  /-- The model's own (log entry 4): the construction parameters (00_scope.md R8, R9). -/
  config  : Config
deriving DecidableEq, Repr

/-- The machine right after `RESET` (10_state.md R40), constructed with the default parameters. -/
def State.reset : State :=
  { v := Vector.replicate 16 0
    i := 0
    pc := 0x200
    stack := Vector.replicate 16 0
    sp := 0
    dt := 0
    st := 0
    mem := []
    fb := Vector.replicate 32 (Vector.replicate 64 false)
    key := Vector.replicate 16 false
    await := false
    fault := { kind := none, addr := 0, op := 0 }
    started := false
    draws := 0
    config := defaultConfig }

end Sys2Proof.Machine
end

