-- ==== Sys2Proof/Machine/Ops.lean ====
section
/-! DEFINITION. The named operations over memory and registers, the ways an instruction ends, and fault entry, the
machine's one exception mechanism (20_memory.md R50 to R60; 40_step_and_control.md R92 to R95; 60_exceptions.md R214). -/

namespace Sys2Proof.Machine

/-! ### Memory -/

/-- `MEM_SIZE`: the valid addresses are 0 to 4095 (00_scope.md R7, 20_memory.md R51). -/
def memSize : Nat := 4096

/-- `PROG_BASE`: where `LOAD` puts a program (00_scope.md R7). -/
def progBase : Nat := 0x200

/-- What an unlisted address reads as: the contents of `MEM` after `RESET`, `FONT` at 0x000 to 0x04F and zero above it
(10_state.md R40, 20_memory.md R52). -/
def background (font : Font) (a : Nat) : Byte := if h : a < 80 then font[a] else 0

/-- The canonical form of a memory: addresses in range and strictly rising, no entry equal to the background. -/
abbrev Memory.wf (font : Font) (m : Memory) : Prop :=
  m.Pairwise (fun p q => p.1 < q.1) ∧ ∀ c ∈ m, c.1 < memSize ∧ c.2 ≠ background font c.1

/-- The byte at `a`: "the last value written to that byte" (20_memory.md R59). -/
def Memory.read (font : Font) : Memory → Nat → Byte
  | [], a => background font a
  | (k, b) :: m, a => if a = k then b else Memory.read font m a

/-- Put the entry `(a, b)` in its place by address, in a memory that lists nothing at `a`. -/
def Memory.insert : Memory → Nat → Byte → Memory
  | [], a, b => [(a, b)]
  | (k, c) :: m, a, b => if a < k then (a, b) :: (k, c) :: m else (k, c) :: Memory.insert m a b

/-- Write `b` at `a`, keeping the canonical form: what was listed at `a` goes, and `b` is listed unless it is what an
unlisted `a` reads as. -/
def Memory.write (font : Font) (m : Memory) (a : Nat) (b : Byte) : Memory :=
  if b = background font a then m.filter (fun c => c.1 != a) else Memory.insert (m.filter (fun c => c.1 != a)) a b

/-- Write bytes at `a`, `a + 1`, ... in ascending order (20_memory.md R55). -/
def Memory.writeList (font : Font) : Memory → Nat → List Byte → Memory
  | m, _, [] => m
  | m, a, b :: bs => Memory.writeList font (Memory.write font m a b) (a + 1) bs

/-- One byte of `MEM`. Addresses above 0xFFF do not exist; every access of an operation is checked by `memRead`,
`memWrite` or `fetch` before this is used. -/
def State.readByte (s : State) (a : Nat) : Byte := Memory.read s.config.font s.mem a

/-- `n` bytes of `MEM` from `a` up, in ascending order. -/
def State.readBytes (s : State) (a n : Nat) : List Byte := (List.range n).map (fun k => s.readByte (a + k))

/-- Store bytes from `a` up, in ascending order. -/
def State.storeBytes (s : State) (a : Nat) (bs : List Byte) : State :=
  { s with mem := Memory.writeList s.config.font s.mem a bs }

/-- The bounds check of 20_memory.md R57 on `n` bytes from `a`: none lies above 0xFFF. -/
def inRange (a n : Nat) : Bool := n == 0 || a + n ≤ memSize

/-- `MemRead` of a range (00_scope.md R12): none when a byte of it lies above 0xFFF. -/
def State.memRead (s : State) (a n : Nat) : Option (List Byte) :=
  if inRange a n then some (s.readBytes a n) else none

/-- `MemWrite` of a range (R12): none, with nothing written, when a byte of it lies above 0xFFF. -/
def State.memWrite (s : State) (a : Nat) (bs : List Byte) : Option State :=
  if inRange a bs.length then some (s.storeBytes a bs) else none

/-- The instruction word at `PC` (40_step_and_control.md R92): none when `PC` is above 0xFFE. -/
def State.fetch (s : State) : Option Word :=
  if inRange s.pc.toNat 2 then some (wordOfBytes (s.readByte s.pc.toNat) (s.readByte (s.pc.toNat + 1))) else none

/-! ### General registers -/

/-- `V[x]`. -/
def State.getV (s : State) (x : Reg) : Byte := s.v[x]

/-- `V[x] <- b`. No register discards writes (10_state.md R21). -/
def State.setV (s : State) (x : Reg) (b : Byte) : State := { s with v := s.v.set x b }

/-- `I <- w` (R24). -/
def State.setI (s : State) (w : Word) : State := { s with i := w }

/-- `VF`, register 15 (10_state.md R22). -/
def vf : Reg := 15

/-- The end of a flag-writing instruction: the result into `V[x]`, then the flag into `VF`; where `x` is 15 the flag is
what remains (41_load_alu.md R121). -/
def State.setResultAndFlag (s : State) (x : Reg) (result flag : Byte) : State := (s.setV x result).setV vf flag

/-! ### How an instruction ends -/

/-- `PC` takes its next value and `AWAIT` is cleared (40_step_and_control.md R95). -/
def State.commit (s : State) (target : Word) : State := { s with pc := target, await := false, started := true }

/-- Commit with outcome `Executed` (R95). -/
def complete (s : State) (target : Word) : Host.Outcome State Fault Refusal := .next (s.commit target)

/-- Commit with the default next `PC`, `pc + 2` (R94). -/
def advance (s : State) : Host.Outcome State Fault Refusal := complete s (s.pc + 2)

/-- Commit a conditional skip: `pc + 4` when the condition holds, else `pc + 2` (R103, C1). -/
def skipIf (c : Bool) (s : State) : Host.Outcome State Fault Refusal := complete s (if c then s.pc + 4 else s.pc + 2)

/-- Commit with outcome `Blocked` (R95): nothing changes but `AWAIT`. -/
def block (s : State) : Host.Outcome State Fault Refusal := .next { s with await := true, started := true }

/-! ### Faults -/

/-- Write the record `FAULT`, if no earlier fault holds it (60_exceptions.md R214, R221). Nothing else changes. -/
def State.latchFault (s : State) (k : Fault) (addr op : Word) : State :=
  if s.fault.kind = none then { s with fault := { kind := some k, addr := addr, op := op } } else s

/-- Fault entry of a `STEP` (R214): `raise k(addr = pc, op = op)`. A next state: none of the operation's writes, `PC` and
`AWAIT` as they were, `FAULT` latched. The machine is then halted. -/
def raise (k : Fault) (op : Word) (s : State) : Host.Outcome State Fault Refusal := .next (s.latchFault k s.pc op)

/-- The halted state (R221). -/
def State.halted (s : State) : Bool := s.fault.kind.isSome

/-- The operation `RESET` (70_reset_and_hazards.md R250), the only way out of the halted state (R220). The construction
parameters are not changed by it, and the stream of random bytes goes on (log entries 4, 6). -/
def State.doReset (s : State) : State := { State.reset with config := s.config, draws := s.draws }

end Sys2Proof.Machine
end

