-- ==== Sys2Proof/Machine/Operands.lean ====
section
/-! DEFINITION. The operand forms beyond a plain register or immediate: the shift source, the register block of STM and
LDM, the index register's updates, the decimal digits, and key indices. -/

namespace Sys2Proof.Machine

/-- What SHR and SHL shift: `Vx` in place under `QUIRK_SHIFT_IN_PLACE`, else `Vy` (41_load_alu.md R135, R139). -/
def State.shiftSource (s : State) (x y : Reg) : Byte := if s.config.shiftInPlace then s.getV x else s.getV y

/-- `V0` to `Vx`, what STM stores (42_index_memory.md R162). -/
def State.regsUpTo (s : State) (x : Reg) : List Byte := s.v.toList.take (x.val + 1)

/-- Load bytes into the registers `k`, `k + 1`, ... in order (R165). -/
def loadRegs (v : Vector Byte 16) : Nat → List Byte → Vector Byte 16
  | _, [] => v
  | k, b :: bs => loadRegs (v.setIfInBounds k b) (k + 1) bs

/-- `I` after STM or LDM: unchanged, or `(I + x + 1) mod 4096` under `QUIRK_INDEX_AUTOINC` (R162, R165). -/
def State.indexAfterBlock (s : State) (x : Reg) : Word :=
  if s.config.indexAutoInc then BitVec.ofNat 16 ((s.i.toNat + x.val + 1) % 4096) else s.i

/-- ADDIX's sum, which wraps modulo 4096 (R154). -/
def indexPlus (i : Word) (b : Byte) : Word := BitVec.ofNat 16 ((i.toNat + b.toNat) % 4096)

/-- The address of glyph `b`: `b * 5`, the whole byte (R156). -/
def glyphAddress (b : Byte) : Word := BitVec.ofNat 16 (b.toNat * 5)

/-- The hundreds, tens and units digits (R158). -/
def bcdDigits (b : Byte) : List Byte :=
  [BitVec.ofNat 8 (b.toNat / 100), BitVec.ofNat 8 (b.toNat / 10 % 10), BitVec.ofNat 8 (b.toNat % 10)]

/-- A byte as a key index: none above 15 (44_keys_timers.md R192; no mask, D15). -/
def keyIndex (k : Nat) : Option Key := if h : k < 16 then some ⟨k, h⟩ else none

/-- The position of the first `true`, counted from `k`. -/
def firstTrue : Nat → List Bool → Option Nat
  | _, [] => none
  | k, b :: bs => if b then some k else firstTrue (k + 1) bs

/-- The lowest pressed key, if any (44_keys_timers.md R195). -/
def State.lowestKey (s : State) : Option Nat := firstTrue 0 s.key.toList

end Sys2Proof.Machine
end

