-- ==== Sys2Proof/Machine/Alu.lean ====
section
/-! DEFINITION. LDI, ADDI, LD, OR, AND, XOR, ADD, SUB, SHR, SUBN, SHL, RND (41_load_alu.md). Operands are read before
anything is written (R122). -/

namespace Sys2Proof.Machine

/-- LDI Vx, kk (R125). -/
def execLdi (x : Reg) (kk : Byte) (s : State) : Host.Outcome State Fault Refusal := advance (s.setV x kk)

/-- ADDI Vx, kk (R126): wraps modulo 256, no flag. -/
def execAddi (x : Reg) (kk : Byte) (s : State) : Host.Outcome State Fault Refusal := advance (s.setV x (s.getV x + kk))

/-- LD Vx, Vy (R127). -/
def execLd (x y : Reg) (s : State) : Host.Outcome State Fault Refusal := advance (s.setV x (s.getV y))

/-- OR Vx, Vy (R128). -/
def execOr (x y : Reg) (s : State) : Host.Outcome State Fault Refusal :=
  advance (s.setResultAndFlag x (s.getV x ||| s.getV y) clearedFlag)

/-- AND Vx, Vy (R129). -/
def execAnd (x y : Reg) (s : State) : Host.Outcome State Fault Refusal :=
  advance (s.setResultAndFlag x (s.getV x &&& s.getV y) clearedFlag)

/-- XOR Vx, Vy (R130). -/
def execXor (x y : Reg) (s : State) : Host.Outcome State Fault Refusal :=
  advance (s.setResultAndFlag x (s.getV x ^^^ s.getV y) clearedFlag)

/-- ADD Vx, Vy (R131). -/
def execAdd (x y : Reg) (s : State) : Host.Outcome State Fault Refusal :=
  advance (s.setResultAndFlag x (s.getV x + s.getV y) (carryFlag (s.getV x) (s.getV y)))

/-- SUB Vx, Vy (R132). -/
def execSub (x y : Reg) (s : State) : Host.Outcome State Fault Refusal :=
  advance (s.setResultAndFlag x (s.getV x - s.getV y) (notBorrowFlag (s.getV x) (s.getV y)))

/-- SHR Vx, Vy (R135). -/
def execShr (x y : Reg) (s : State) : Host.Outcome State Fault Refusal :=
  advance (s.setResultAndFlag x (s.shiftSource x y >>> 1) (lowBitFlag (s.shiftSource x y)))

/-- SUBN Vx, Vy (R136). -/
def execSubn (x y : Reg) (s : State) : Host.Outcome State Fault Refusal :=
  advance (s.setResultAndFlag x (s.getV y - s.getV x) (notBorrowFlag (s.getV y) (s.getV x)))

/-- SHL Vx, Vy (R139). -/
def execShl (x y : Reg) (s : State) : Host.Outcome State Fault Refusal :=
  advance (s.setResultAndFlag x (s.shiftSource x y <<< 1) (highBitFlag (s.shiftSource x y)))

/-- RND Vx, kk (R141): one draw of the random input, masked. -/
def execRnd (x : Reg) (kk : Byte) (s : State) : Host.Outcome State Fault Refusal :=
  advance { s.setV x (Config.freeRnd s.draws &&& kk) with draws := s.draws + 1 }

end Sys2Proof.Machine
end

