-- ==== Sys2Proof/Machine/Control.lean ====
section
/-! DEFINITION. RET, JP, CALL, SEI, SNEI, SE, SNE, JPV0 (40_step_and_control.md). -/

namespace Sys2Proof.Machine

/-- RET (R100): to the newest live entry, which is not cleared (D35); StackUnderflow when `SP = 0`. -/
def execRet (s : State) : Host.Outcome State Fault Refusal :=
  if h : s.sp.val = 0 then raise .stackUnderflow (encode .ret) s
  else complete { s with sp := ⟨s.sp.val - 1, by omega⟩ } (s.stack[s.sp.val - 1]'(by omega))

/-- JP nnn (R101). -/
def execJp (nnn : Word) (s : State) : Host.Outcome State Fault Refusal := complete s nnn

/-- CALL nnn (R102): push `pc + 2`; StackOverflow when `SP = 16`. -/
def execCall (nnn : Word) (s : State) : Host.Outcome State Fault Refusal :=
  if h : s.sp.val < 16 then
    complete { s with stack := s.stack.set s.sp.val (s.pc + 2), sp := ⟨s.sp.val + 1, by omega⟩ } nnn
  else raise .stackOverflow (encode (.call nnn)) s

/-- SEI Vx, kk (R103). -/
def execSei (x : Reg) (kk : Byte) (s : State) : Host.Outcome State Fault Refusal := skipIf (s.getV x == kk) s

/-- SNEI Vx, kk (R104). -/
def execSnei (x : Reg) (kk : Byte) (s : State) : Host.Outcome State Fault Refusal := skipIf (s.getV x != kk) s

/-- SE Vx, Vy (R105). -/
def execSe (x y : Reg) (s : State) : Host.Outcome State Fault Refusal := skipIf (s.getV x == s.getV y) s

/-- SNE Vx, Vy (R106). -/
def execSne (x y : Reg) (s : State) : Host.Outcome State Fault Refusal := skipIf (s.getV x != s.getV y) s

/-- JPV0 nnn (R107): a 16-bit sum, not reduced modulo 4096 (D22). -/
def execJpv0 (nnn : Word) (s : State) : Host.Outcome State Fault Refusal :=
  complete s (nnn + (s.getV 0).setWidth 16)

end Sys2Proof.Machine
end

