-- ==== Sys2Proof/Machine/Display.lean ====
section
/-! DEFINITION. The framebuffer, the sprite-draw engine, CLS and DRW (43_display.md). -/

namespace Sys2Proof.Machine

/-- `FB[r][c]`. -/
def Framebuffer.pixel (fb : Framebuffer) (r : Fin 32) (c : Fin 64) : Bool := fb[r][c]

/-- `FB[r][c] <- FB[r][c] ^ 1`. -/
def Framebuffer.flip (fb : Framebuffer) (r : Fin 32) (c : Fin 64) : Framebuffer :=
  fb.set r (fb[r].set c (!fb[r][c]))

/-- The framebuffer with all 2048 pixels 0. -/
def clearFramebuffer : Framebuffer := Vector.replicate 32 (Vector.replicate 64 false)

/-- The pixel that row `r`, column `c` of an unclipped sprite lands on (R176): every coordinate reduced under
`QUIRK_SPRITE_WRAP`, else none past an edge. -/
def target (wrap : Bool) (r c : Nat) : Option (Fin 32 × Fin 64) :=
  if wrap then some (Fin.ofNat 32 r, Fin.ofNat 64 c)
  else if h : r < 32 ∧ c < 64 then some (⟨r, h.1⟩, ⟨c, h.2⟩) else none

/-- A framebuffer in the course of one DRW, with the collision seen so far. -/
structure Drawing where
  fb  : Framebuffer
  hit : Bool
deriving DecidableEq, Repr

/-- One set sprite bit at row `r`, column `c` (R176): clipped, or its pixel inverted and a collision noted if that pixel
was 1. -/
def drawBit (wrap : Bool) (r c : Nat) (d : Drawing) : Drawing :=
  match target wrap r c with
  | none          => d
  | some (tr, tc) => { fb := d.fb.flip tr tc, hit := d.hit || d.fb.pixel tr tc }

/-- The bits of one sprite byte from loop bit `bit` on, `fuel` of them; loop bit 0 is `b[7]` (R176). -/
def drawBits (wrap : Bool) (r x0 : Nat) (b : Byte) : Nat → Nat → Drawing → Drawing
  | 0, _, d => d
  | fuel + 1, bit, d =>
    drawBits wrap r x0 b fuel (bit + 1) (if b.getLsbD (7 - bit) then drawBit wrap r (x0 + bit) d else d)

/-- The sprite's rows from row `r` of the screen on, one byte each. -/
def drawRows (wrap : Bool) (x0 : Nat) : Nat → List Byte → Drawing → Drawing
  | _, [], d => d
  | r, b :: bs, d => drawRows wrap x0 (r + 1) bs (drawBits wrap r x0 b 8 0 d)

/-- `Draw(vx, vy, n)` on the sprite's bytes, the anchor wrapped at entry and the flag 0 at the start (R175 to R177). -/
def drawSprite (wrap : Bool) (vx vy : Byte) (rows : List Byte) (fb : Framebuffer) : Drawing :=
  drawRows wrap (vx.toNat % 64) (vy.toNat % 32) rows { fb := fb, hit := false }

/-- CLS (R172). -/
def execCls (s : State) : Host.Outcome State Fault Refusal := advance { s with fb := clearFramebuffer }

/-- DRW Vx, Vy, n (R174): all `n` bytes are checked and read before a pixel changes (R178); height 0 reads and draws
nothing and clears `VF` (D13). -/
def execDrw (x y : Reg) (n : Nat) (s : State) : Host.Outcome State Fault Refusal :=
  match s.memRead s.i.toNat n with
  | some rows =>
    let d := drawSprite s.config.spriteWrap (s.getV x) (s.getV y) rows s.fb
    advance ({ s with fb := d.fb }.setV vf (collisionFlag d.hit))
  | none => raise .addressOutOfRange (encode (.drw x y n)) s

end Sys2Proof.Machine
end

