-- ==== Sys2Proof/Machine/IndexMemory.lean ====
section
/-! DEFINITION. LDIX, ADDIX, FONT, BCD, STM, LDM (42_index_memory.md). -/

namespace Sys2Proof.Machine

/-- LDIX nnn (R152). -/
def execLdix (nnn : Word) (s : State) : Host.Outcome State Fault Refusal := advance (s.setI nnn)

/-- ADDIX Vx (R154): wraps modulo 4096, no flag. -/
def execAddix (x : Reg) (s : State) : Host.Outcome State Fault Refusal :=
  advance (s.setI (indexPlus s.i (s.getV x)))

/-- FONT Vx (R156). -/
def execFont (x : Reg) (s : State) : Host.Outcome State Fault Refusal :=
  advance (s.setI (glyphAddress (s.getV x)))

/-- BCD Vx (R158): three digits at `I`, `I + 1`, `I + 2`, or AddressOutOfRange and nothing written. -/
def execBcd (x : Reg) (s : State) : Host.Outcome State Fault Refusal :=
  match s.memWrite s.i.toNat (bcdDigits (s.getV x)) with
  | some t => advance t
  | none   => raise .addressOutOfRange (encode (.bcd x)) s

/-- STM Vx (R162): `V0` to `Vx` at `I` to `I + x`, or AddressOutOfRange and nothing written. -/
def execStm (x : Reg) (s : State) : Host.Outcome State Fault Refusal :=
  match s.memWrite s.i.toNat (s.regsUpTo x) with
  | some t => advance (t.setI (s.indexAfterBlock x))
  | none   => raise .addressOutOfRange (encode (.stm x)) s

/-- LDM Vx (R165): `V0` to `Vx` from `I` to `I + x`, or AddressOutOfRange and no register changed. -/
def execLdm (x : Reg) (s : State) : Host.Outcome State Fault Refusal :=
  match s.memRead s.i.toNat (x.val + 1) with
  | some bs => advance ({ s with v := loadRegs s.v 0 bs }.setI (s.indexAfterBlock x))
  | none    => raise .addressOutOfRange (encode (.ldm x)) s

end Sys2Proof.Machine
end

