-- ==== Sys2Proof/Machine/KeysTimers.lean ====
section
/-! DEFINITION. SKP, SKNP, WKEY, LDDT, STDT, STST (44_keys_timers.md). -/

namespace Sys2Proof.Machine

/-- SKP Vx (R192); InvalidKeyIndex when `Vx > 15`. -/
def execSkp (x : Reg) (s : State) : Host.Outcome State Fault Refusal :=
  match keyIndex (s.getV x).toNat with
  | some k => skipIf s.key[k] s
  | none   => raise .invalidKeyIndex (encode (.skp x)) s

/-- SKNP Vx (R193); InvalidKeyIndex when `Vx > 15`. -/
def execSknp (x : Reg) (s : State) : Host.Outcome State Fault Refusal :=
  match keyIndex (s.getV x).toNat with
  | some k => skipIf (!s.key[k]) s
  | none   => raise .invalidKeyIndex (encode (.sknp x)) s

/-- WKEY Vx (R195): the lowest pressed key's index, or blocked with `PC` unchanged. -/
def execWkey (x : Reg) (s : State) : Host.Outcome State Fault Refusal :=
  match s.lowestKey with
  | some k => advance (s.setV x (BitVec.ofNat 8 k))
  | none   => block s

/-- LDDT Vx (R198). -/
def execLddt (x : Reg) (s : State) : Host.Outcome State Fault Refusal := advance (s.setV x s.dt)

/-- STDT Vx (R199). -/
def execStdt (x : Reg) (s : State) : Host.Outcome State Fault Refusal := advance { s with dt := s.getV x }

/-- STST Vx (R200). -/
def execStst (x : Reg) (s : State) : Host.Outcome State Fault Refusal := advance { s with st := s.getV x }

end Sys2Proof.Machine
end

