-- ==== Sys2Proof/Machine/Step.lean ====
section
/-! DEFINITION. The operation `STEP` (40_step_and_control.md R90 to R95): halted check, fetch, decode, execute; the
commit is part of each meaning (`complete`, `block`, `raise`). -/

namespace Sys2Proof.Machine

/-- One `STEP`. A halted machine does nothing (R91); a fetch or decode fault is entered (R92, R93); else the decoded
instruction is executed. -/
def step (s : State) : Host.Outcome State Fault Refusal :=
  if s.halted then .next s
  else
    match s.fetch with
    | none    => raise .addressOutOfRange 0 s
    | some op =>
      match decodeWord op with
      | .error _ => raise .decodeError op s
      | .ok i    => exec i s

/-- `s` with the table word `w` stored where the next `STEP` fetches, so that this `STEP` runs it (log entry 9). The fetch
needs a machine that is not halted and a `PC` at most 0xFFE: `FAULT` is cleared, and a `PC` from which nothing can be
fetched is replaced by 0x200. -/
def State.withFetchWord (s : State) (nbits w : Nat) : State :=
  let pc : Word := if inRange s.pc.toNat 2 then s.pc else BitVec.ofNat 16 progBase
  { s with pc := pc, fault := State.reset.fault }.storeBytes pc.toNat (tableBytes nbits w)

end Sys2Proof.Machine
end

