-- ==== Sys2Proof/Machine/Interface.lean ====
section
/-! DEFINITION. The block's interface: the eight atomic operations (00_scope.md R6), what each answers, and the tick
interval of the clock driver (60_exceptions.md R232 to R239; 70_reset_and_hazards.md R250, R253). -/

namespace Sys2Proof.Machine

/-- The operations the environment invokes (00_scope.md R6). Key indices are natural numbers (60_exceptions.md R236). -/
inductive Operation where
  | reset
  | load (bytes : List Byte)
  | step
  | tick
  | keySet (k : Nat)
  | keyClear (k : Nat)
  | keyRead (k : Nat)
  | fbRead
deriving DecidableEq, Repr

/-- What an operation answers (R6): `done` for one without a result, the outcome of a `STEP` (40_step_and_control.md
R90), or its result. -/
inductive Response where
  | done
  | executed
  | blocked
  | halted
  | fault (k : Fault)
  | tone (on : Bool)
  | bit (b : Bool)
  | pixels (bs : List Bool)
deriving DecidableEq, Repr

/-- The outcome of the `STEP` that took `s` to `t` (R90, R95). -/
def stepResponse (s t : State) : Response :=
  if s.halted then .halted
  else
    match t.fault.kind with
    | some k => .fault k
    | none   => if t.await then .blocked else .executed

/-- Fault entry of an environment-side operation: `addr` is the current `PC`, `op` is 0 (60_exceptions.md R214). -/
def raiseOutside (k : Fault) (s : State) : State × Response := (s.latchFault k s.pc 0, .fault k)

/-- The most bytes a program may have, 0x1000 - 0x200 (60_exceptions.md R217). -/
def maxProgram : Nat := memSize - progBase

/-- `LOAD(bytes)` (70_reset_and_hazards.md R253), which has a meaning only before the first `STEP` of a run
(20_memory.md R68) and not in the halted state (60_exceptions.md R221). -/
def doLoad (bytes : List Byte) (s : State) : Host.Outcome (State × Response) Fault Refusal :=
  if s.started || s.halted then .refused .lateLoad
  else if bytes.length > maxProgram then .next (raiseOutside .programTooLarge s)
  else .next (s.storeBytes progBase bytes, .done)

/-- A timer byte "decremented toward zero ... never decremented below zero" (10_state.md R30). -/
def countDown (b : Byte) : Byte := if b = 0 then 0 else b - 1

/-- `TICK` (60_exceptions.md R232) on the state. -/
def State.doTick (s : State) : State := { s with dt := countDown s.dt, st := countDown s.st }

/-- `TONE`, the output of the `TICK` that finds this state: 1 exactly when it finds `ST = 1` (R232, R234). -/
def State.tone (s : State) : Bool := s.st == 1

/-- `KEY_SET(k)` and `KEY_CLEAR(k)`: write key `k` (R236). -/
def doKeyWrite (k : Nat) (pressed : Bool) (s : State) : State × Response :=
  match keyIndex k with
  | some k => ({ s with key := s.key.set k pressed }, .done)
  | none   => raiseOutside .invalidKeyIndex s

/-- `KEY_READ(k)` (R237). -/
def doKeyRead (k : Nat) (s : State) : State × Response :=
  match keyIndex k with
  | some k => (s, .bit s.key[k])
  | none   => raiseOutside .invalidKeyIndex s

/-- The 2048 bits of the framebuffer in row-major order, what `FB_READ` answers (R239, 10_state.md R34). -/
def State.snapshot (s : State) : List Bool := s.fb.toList.flatMap (fun row => row.toList)

/-- One operation of the environment on the block: the next state and the answer. -/
def operate (op : Operation) (s : State) : Host.Outcome (State × Response) Fault Refusal :=
  match op with
  | .reset      => .next (s.doReset, .done)
  | .load bytes => doLoad bytes s
  | .step       =>
    match step s with
    | .next t    => .next (t, stepResponse s t)
    | .fault f   => .fault f
    | .refused r => .refused r
  | .tick       => .next (s.doTick, .tone s.tone)
  | .keySet k   => .next (doKeyWrite k true s)
  | .keyClear k => .next (doKeyWrite k false s)
  | .keyRead k  => .next (doKeyRead k s)
  | .fbRead     => .next (s, .pixels s.snapshot)

/-- A history: operations one at a time in the order the environment issues them (20_memory.md R63), with their answers. -/
def runOps : List Operation → State → Host.Outcome (State × List Response) Fault Refusal
  | [], s => .next (s, [])
  | op :: ops, s =>
    match operate op s with
    | .fault f   => .fault f
    | .refused r => .refused r
    | .next (t, r) =>
      match runOps ops t with
      | .next (u, rs) => .next (u, r :: rs)
      | .fault f      => .fault f
      | .refused q    => .refused q

/-- One tick interval of the clock driver: one `STEP` and one `TICK`, in the order `TICK_ORDER` (60_exceptions.md R233). -/
def tickInterval (s : State) : Host.Outcome (State × List Response) Fault Refusal :=
  match s.config.tickOrder with
  | .stepFirst => runOps [.step, .tick] s
  | .tickFirst => runOps [.tick, .step] s

end Sys2Proof.Machine
end

