-- ==== Sys2Proof/Safety.lean ====
section
/-! DEFINITION. The terms claims are stated in: the invariant of the block (10_state.md R42), when a run is safe or has
ended (70_reset_and_hazards.md R266), the fault conditions of 60_exceptions.md R211, what an executed instruction keeps,
and where a sprite's bits land (43_display.md R176). -/

namespace Sys2Proof.Machine

/-! ### Runs -/

/-- A history that meets no fault: every operation has a meaning and the machine is not halted after it. -/
def SafeHistory (ops : List Operation) (s : State) : Prop :=
  ∃ t rs, runOps ops s = .next (t, rs) ∧ t.halted = false

/-- "The program has ended" (R266): no fault, and the instruction at `PC` is a jump to itself. -/
def State.ended (s : State) : Prop :=
  s.halted = false ∧ ∃ op, s.fetch = some op ∧ decodeWord op = .ok (.jp s.pc)

/-- The invariant of the block, what 10_state.md R42 asks beyond the types of the fields, with the parts its rules give
as their reasons: memory in its canonical form, `I` and `PC` in range (R24, R27), live return addresses at most 0x1000
(R27), an empty `FAULT` record all zero (R39), and `AWAIT` set only with a WKEY at `PC` (R42 (g)) in a run that has
begun. -/
structure State.Inv (s : State) : Prop where
  memory   : Memory.wf s.config.font s.mem
  index    : s.i.toNat ≤ 0xFFF
  counter  : s.pc.toNat ≤ 0x10FE
  returns  : ∀ k : Fin 16, k.val < s.sp.val → s.stack[k].toNat ≤ 0x1000
  noFault  : s.fault.kind = none → s.fault.addr = 0 ∧ s.fault.op = 0
  awaiting : s.await = true → s.started = true ∧ ∃ op x, s.fetch = some op ∧ decodeWord op = .ok (.wkey x)

/-! ### Faults -/

/-- When an instruction faults, and with which kind (R211, R213, R215, R216). -/
def faultOf (i : Instr) (s : State) : Option Fault :=
  match i with
  | .ret       => if s.sp.val = 0 then some .stackUnderflow else none
  | .call _    => if s.sp.val = 16 then some .stackOverflow else none
  | .bcd _     => if s.i.toNat + 2 > 0xFFF then some .addressOutOfRange else none
  | .stm x     => if s.i.toNat + x.val > 0xFFF then some .addressOutOfRange else none
  | .ldm x     => if s.i.toNat + x.val > 0xFFF then some .addressOutOfRange else none
  | .drw _ _ n => if n ≥ 1 ∧ s.i.toNat + n - 1 > 0xFFF then some .addressOutOfRange else none
  | .skp x     => if (s.getV x).toNat > 15 then some .invalidKeyIndex else none
  | .sknp x    => if (s.getV x).toNat > 15 then some .invalidKeyIndex else none
  | .cls | .jp _ | .sei _ _ | .snei _ _ | .se _ _ | .ldi _ _ | .addi _ _ | .ld _ _ | .or _ _ | .and _ _
  | .xor _ _ | .add _ _ | .sub _ _ | .shr _ _ | .subn _ _ | .shl _ _ | .sne _ _ | .ldix _ | .jpv0 _
  | .rnd _ _ | .lddt _ | .wkey _ | .stdt _ | .stst _ | .addix _ | .font _ => none

/-- The kind of fault a `STEP` of a machine that is not halted raises, in phase order (R218): fetch, decode, execute. -/
def stepFault (s : State) : Option Fault :=
  if s.pc.toNat > 0xFFE then some .addressOutOfRange
  else
    match decodeWord (wordOfBytes (s.readByte s.pc.toNat) (s.readByte (s.pc.toNat + 1))) with
    | .error _ => some .decodeError
    | .ok i    => faultOf i s

/-- `s` with nothing changed but the record `FAULT` (60_exceptions.md R214). -/
def State.faulted (s : State) (k : Fault) (op : Word) : State :=
  { s with fault := { kind := some k, addr := s.pc, op := op } }

/-! ### Where control goes -/

/-- The next `PC` of an instruction that raises no fault (10_state.md R26). -/
def nextPc (i : Instr) (s : State) : Word :=
  match i with
  | .jp nnn   => nnn
  | .call nnn => nnn
  | .jpv0 nnn => nnn + (s.getV 0).setWidth 16
  | .ret      => (s.stack[s.sp.val - 1]?).getD 0
  | .sei x kk  => if s.getV x = kk then s.pc + 4 else s.pc + 2
  | .snei x kk => if s.getV x ≠ kk then s.pc + 4 else s.pc + 2
  | .se x y    => if s.getV x = s.getV y then s.pc + 4 else s.pc + 2
  | .sne x y   => if s.getV x ≠ s.getV y then s.pc + 4 else s.pc + 2
  | .skp x     => if s.key[(s.getV x).toNat]? = some true then s.pc + 4 else s.pc + 2
  | .sknp x    => if s.key[(s.getV x).toNat]? = some false then s.pc + 4 else s.pc + 2
  | .wkey _    => if ∃ k : Key, s.key[k] = true then s.pc + 2 else s.pc
  | .cls | .ldi _ _ | .addi _ _ | .ld _ _ | .or _ _ | .and _ _ | .xor _ _ | .add _ _ | .sub _ _ | .shr _ _
  | .subn _ _ | .shl _ _ | .ldix _ | .rnd _ _ | .drw _ _ _ | .lddt _ | .stdt _ | .stst _ | .addix _ | .font _
  | .bcd _ | .stm _ | .ldm _ => s.pc + 2

/-- CALLs at given sites to given targets, one after another, with nothing else on the stack in between
(40_step_and_control.md R108): each pair is a site and a target. -/
def callAll : List (Word × Word) → State → Host.Outcome State Fault Refusal
  | [], s => .next s
  | (site, target) :: cs, s =>
    match exec (.call target) { s with pc := site } with
    | .next t    => callAll cs t
    | .fault f   => .fault f
    | .refused r => .refused r

/-- So many RETs, one after another. -/
def returnAll : Nat → State → Host.Outcome State Fault Refusal
  | 0, s => .next s
  | n + 1, s =>
    match exec .ret s with
    | .next t    => returnAll n t
    | .fault f   => .fault f
    | .refused r => .refused r

/-! ### Which registers an instruction may write -/

/-- The general registers an instruction may write: its destination, `V0` to `Vx` for LDM, and `VF` where it is written
as a flag (10_state.md R22, R23). -/
def writesRegister (i : Instr) (r : Reg) : Bool :=
  match i with
  | .ldi x _ | .addi x _ | .ld x _ | .rnd x _ | .lddt x | .wkey x => r == x
  | .or x _ | .and x _ | .xor x _ | .add x _ | .sub x _ | .shr x _ | .subn x _ | .shl x _ => r == x || r == vf
  | .drw _ _ _ => r == vf
  | .ldm x => r.val ≤ x.val
  | .cls | .ret | .jp _ | .call _ | .sei _ _ | .snei _ _ | .se _ _ | .sne _ _ | .ldix _ | .jpv0 _ | .skp _
  | .sknp _ | .stdt _ | .stst _ | .addix _ | .font _ | .bcd _ | .stm _ => false

/-! ### What an executed instruction keeps -/

/-- Outcome `Executed` (40_step_and_control.md R95): `PC` is `target`, `AWAIT` is 0, and what no executed instruction
writes is kept: the key latch (R36), `FAULT` (R39), the construction parameters (R8). -/
def Executes (s t : State) (target : Word) : Prop :=
  t.pc = target ∧ t.await = false ∧ t.started = true ∧ t.key = s.key ∧ t.fault = s.fault ∧ t.config = s.config

/-- Every general register but those of `p` is unchanged. -/
def KeepsRegistersBut (p : Reg → Prop) (s t : State) : Prop := ∀ r, ¬ p r → t.getV r = s.getV r

/-- Every general register is unchanged. -/
def KeepsRegisters (s t : State) : Prop := ∀ r, t.getV r = s.getV r

/-- Every byte of memory reads as before. -/
def KeepsMemory (s t : State) : Prop := ∀ a, t.readByte a = s.readByte a

/-- Every byte of memory outside the `n` bytes from `lo` up reads as before. -/
def KeepsMemoryOutside (lo n : Nat) (s t : State) : Prop :=
  ∀ a, ¬ (lo ≤ a ∧ a < lo + n) → t.readByte a = s.readByte a

/-- The index register is unchanged. -/
def KeepsIndex (s t : State) : Prop := t.i = s.i

/-- The call stack and its pointer are unchanged. -/
def KeepsStack (s t : State) : Prop := t.stack = s.stack ∧ t.sp = s.sp

/-- Both timers are unchanged. -/
def KeepsTimers (s t : State) : Prop := t.dt = s.dt ∧ t.st = s.st

/-- The framebuffer is unchanged. -/
def KeepsDisplay (s t : State) : Prop := t.fb = s.fb

/-- No random byte has been drawn. -/
def KeepsDraws (s t : State) : Prop := t.draws = s.draws

/-- The frame of the instructions that touch nothing but general registers. -/
def KeepsAllButRegisters (s t : State) : Prop :=
  KeepsIndex s t ∧ KeepsStack s t ∧ KeepsTimers s t ∧ KeepsMemory s t ∧ KeepsDisplay s t ∧ KeepsDraws s t

/-! ### Sprites -/

/-- Bit `bit` of sprite row `row`, bit 0 being the leftmost pixel `b[7]`, of the sprite at `I` (43_display.md R170, R176). -/
def State.spriteBit (s : State) (row bit : Nat) : Bool := (s.readByte (s.i.toNat + row)).getLsbD (7 - bit)

/-- A set bit of the `n`-row sprite drawn from `(vx, vy)` lands on the pixel in row `r`, column `c` (R175, R176): the
anchor is reduced modulo 64 and 32; a coordinate past an edge is wrapped under `QUIRK_SPRITE_WRAP` and clipped
otherwise. -/
def State.covers (s : State) (vx vy : Byte) (n : Nat) (r : Fin 32) (c : Fin 64) : Prop :=
  ∃ row bit, row < n ∧ bit < 8 ∧ s.spriteBit row bit = true ∧
    (if s.config.spriteWrap then
      (vy.toNat % 32 + row) % 32 = r.val ∧ (vx.toNat % 64 + bit) % 64 = c.val
    else vy.toNat % 32 + row = r.val ∧ vx.toNat % 64 + bit = c.val)

end Sys2Proof.Machine
end

