-- ==== Sys2Proof/Certificates/Slice0/Obligations.lean ====
section
/-! DEFINITION. The statements for the provers. Each docstring names the rule of spec/ it formalises. Where a statement says
that a fault changes nothing but `FAULT`, that is the spec's decision D7 for every kind but DecodeError, and what the record
holds its decision D33 (60_exceptions.md R214, log entry 13). -/

open Sys2Proof Sys2Proof.Machine

/-! ### Encoding -/

/-- Words written out from the patterns of 30_encoding.md R73 decode to the instructions they stand for, and some illegal
words of R75 to none. The patterns are the spec's general knowledge (log entry 1). -/
def Obligations.WrittenWordsDecode : Prop :=
  decodeWord 0x00E0 = .ok .cls ∧ decodeWord 0x00EE = .ok .ret ∧ decodeWord 0x2FFF = .ok (.call 0xFFF) ∧
  decodeWord 0x3A7F = .ok (.sei 10 0x7F) ∧ decodeWord 0x812E = .ok (.shl 1 2) ∧
  decodeWord 0x9CD0 = .ok (.sne 12 13) ∧ decodeWord 0xA123 = .ok (.ldix 0x123) ∧
  decodeWord 0xD12A = .ok (.drw 1 2 10) ∧ decodeWord 0xE4A1 = .ok (.sknp 4) ∧
  decodeWord 0xF365 = .ok (.ldm 3) ∧ decodeWord 0x0000 = .error .illegal0 ∧
  decodeWord 0x5AB1 = .error .illegal5 ∧ decodeWord 0x812F = .error .illegal8 ∧ decodeWord 0xF085 = .error .illegalF

/-- Decoding the word of a well-formed instruction gives the instruction back, with every operand (R71 to R73; their
field positions are the spec's general knowledge, log entry 1). -/
def Obligations.DecodeOfEncodeIsTheInstruction : Prop :=
  ∀ i : Instr, wellFormed i = true → decodeWord (encode i) = .ok i ∧ decode (encodeBytes i) = .ok (i, [])

/-- A word that decodes is the word of the instruction it decodes to, and that instruction is well-formed: no word has two
meanings and no bit of a legal word is ignored (R73, R75; log entry 1). -/
def Obligations.EncodeOfDecodeIsTheWord : Prop :=
  ∀ (op : Word) (i : Instr), decodeWord op = .ok i → wellFormed i = true ∧ encode i = op

/-- A word selects a row of the opcode map by mask and match exactly when it decodes to an instruction of that row; so a
word that matches no row is illegal, and none matches two rows (R73, R75). The spec's masks and matches are its general
knowledge (log entry 1). -/
def Obligations.DecodeFollowsTheOpcodeMap : Prop :=
  opcodeMap.length = 34 ∧ opcodeMap.Nodup ∧
  ∀ (op : Word) (row : OpcodeRow), row ∈ opcodeMap →
    (op &&& row.mask = row.value ↔ ∃ i, decodeWord op = .ok i ∧ opcodeRow i = row)

/-! ### The STEP operation -/

/-- When the two bytes at `PC` decode to an instruction, a `STEP` of a machine that is not halted is the execution of that
instruction (40_step_and_control.md R92, R93). -/
def Obligations.StepExecutesTheDecodedInstruction : Prop :=
  ∀ (s : State) (i : Instr) (rest : List Byte), s.fault.kind = none → s.pc.toNat ≤ 0xFFE →
    decode (s.readBytes s.pc.toNat 2) = .ok (i, rest) → step s = exec i s

/-- `withFetchWord` places an instruction so that the next step runs it, from every state (log entry 9). -/
def Obligations.PlacedWordRunsNext : Prop :=
  ∀ (s : State) (w : Nat) (i : Instr), decodeTableWord 16 w = some i →
    step (s.withFetchWord 16 w) = exec i (s.withFetchWord 16 w)

/-- In the halted state `STEP` changes nothing and answers `Halted` (R91, the spec's decision D8). -/
def Obligations.HaltedStepDoesNothing : Prop :=
  ∀ s : State, s.fault.kind ≠ none → operate .step s = .next (s, .halted)

/-- Fetch reads the big-endian word at `PC` (20_memory.md R54); above 0xFFE it raises AddressOutOfRange with `op = 0`
(40_step_and_control.md R92, the spec's decision D6). -/
def Obligations.FetchReadsTwoBytesOrFaults : Prop :=
  ∀ s : State,
    (s.pc.toNat ≤ 0xFFE → ∃ op, s.fetch = some op ∧
      bits op 15 8 = (s.readByte s.pc.toNat).toNat ∧ bits op 7 0 = (s.readByte (s.pc.toNat + 1)).toNat) ∧
    (s.pc.toNat > 0xFFE → s.fault.kind = none →
      operate .step s = .next (s.faulted .addressOutOfRange 0, .fault .addressOutOfRange))

/-- An illegal word at `PC` raises DecodeError: `PC` is not advanced and nothing but `FAULT` changes (60_exceptions.md
R212); that the fault is latched is the spec's decision D8, what the record holds its decision D33 (R214, log entry 13). -/
def Obligations.IllegalWordFaults : Prop :=
  ∀ (s : State) (op : Word) (r : DecodeReject), s.fault.kind = none → s.fetch = some op → decodeWord op = .error r →
    operate .step s = .next (s.faulted .decodeError op, .fault .decodeError)

/-- A `STEP` of a machine that is not halted raises a fault exactly where the table of R211 says, with that kind, in the
order fetch, decode, execute (60_exceptions.md R211, and R218, which the spec marks as derived). The
AddressOutOfRange cases are the spec's decision D6 and those of SKP and SKNP its decision D15 (log entry 13). -/
def Obligations.StepRaisesExactlyTheListedFaults : Prop :=
  ∀ s : State, s.fault.kind = none → ∃ t, step s = .next t ∧ t.fault.kind = stepFault s

/-- Whatever operation raises a fault, nothing changes but `FAULT`; the first fault of a run is recorded with the current
`PC` and the fetched word (0 for a fetch fault or an environment-side operation), a later one is not
(60_exceptions.md R214, R219, R221: the spec's decisions D7, D8, D33). -/
def Obligations.FaultsArePrecise : Prop :=
  ∀ (o : Operation) (s t : State) (k : Fault), operate o s = .next (t, .fault k) →
    t = { s with fault := t.fault } ∧
    (s.fault.kind = none →
      t.fault = { kind := some k, addr := s.pc, op := if o = .step then s.fetch.getD 0 else 0 }) ∧
    (s.fault.kind ≠ none → t.fault = s.fault)

/-- No instruction and no `STEP` ends without a next state: the model refuses nothing. That fault entry (60_exceptions.md R214)
is a next state is the model's choice (log entry 3). -/
def Obligations.EveryInstructionAnswersANextState : Prop :=
  (∀ (i : Instr) (s : State), ∃ t, exec i s = .next t) ∧ ∀ s : State, ∃ t, step s = .next t

/-- What each outcome of a `STEP` leaves (40_step_and_control.md R90, R95; 10_state.md R38): `AWAIT` is 0 after
`Executed`, 1 after `Blocked`, which changes nothing else and happens exactly on a WKEY with no key pressed. The
outcomes' names are the spec's decision D1, `AWAIT` its decision D18, and the field `started` is the model's own (log entry
7). -/
def Obligations.OutcomesOfAStep : Prop :=
  ∀ (s t : State) (r : Response), operate .step s = .next (t, r) →
    (r = .executed ∨ r = .blocked ∨ r = .halted ∨ ∃ k, r = .fault k) ∧
    (r = .executed → t.await = false) ∧
    (r = .blocked → t = { s with await := true, started := true }) ∧
    (r = .halted → t = s) ∧
    (∀ k, r = .fault k → t.await = s.await ∧ t.pc = s.pc) ∧
    (r = .blocked ↔ s.fault.kind = none ∧
      (∃ op x, s.fetch = some op ∧ decodeWord op = .ok (.wkey x)) ∧ ∀ k : Key, s.key[k] = false)

/-- The next `PC` of every instruction (10_state.md R26, which the spec marks as derived); a fault leaves it. -/
def Obligations.NextPcOfEveryInstruction : Prop :=
  ∀ (i : Instr) (s : State), ∃ t, exec i s = .next t ∧
    (faultOf i s = none → t.pc = nextPc i s) ∧ (faultOf i s ≠ none → t.pc = s.pc)

/-! ### Control transfer -/

/-- RET (40_step_and_control.md R100): `PC` from the newest live entry, which stays in the array, and `SP` down by one; with
`SP = 0`, StackUnderflow. That the popped entry stays is the spec's decision D35, that the fault changes nothing else its
decision D7 (log entry 13). -/
def Obligations.ReturnPopsTheNewestEntry : Prop :=
  ∀ s : State,
    (s.sp.val ≠ 0 → ∃ t target, exec .ret s = .next t ∧ s.stack[s.sp.val - 1]? = some target ∧
      Executes s t target ∧ t.sp.val + 1 = s.sp.val ∧ t.stack = s.stack ∧
      KeepsRegisters s t ∧ KeepsIndex s t ∧ KeepsTimers s t ∧ KeepsMemory s t ∧ KeepsDisplay s t ∧ KeepsDraws s t) ∧
    (s.sp.val = 0 → s.fault.kind = none → exec .ret s = .next (s.faulted .stackUnderflow 0x00EE))

/-- CALL (R102): `pc + 2` on the stack, `SP` up by one, `PC` to `nnn`; with `SP = 16`, StackOverflow. That `pc + 2`
is pushed, and not the CALL's own address, is the spec's decision D4, that the fault changes nothing else its decision D7 (log
entry 13). -/
def Obligations.CallPushesTheReturnAddress : Prop :=
  ∀ (s : State) (nnn : Word),
    (s.sp.val < 16 → ∃ t, exec (.call nnn) s = .next t ∧ Executes s t nnn ∧ t.sp.val = s.sp.val + 1 ∧
      t.stack[s.sp.val]? = some (s.pc + 2) ∧ (∀ k : Fin 16, k.val ≠ s.sp.val → t.stack[k] = s.stack[k]) ∧
      KeepsRegisters s t ∧ KeepsIndex s t ∧ KeepsTimers s t ∧ KeepsMemory s t ∧ KeepsDisplay s t ∧ KeepsDraws s t) ∧
    (s.sp.val = 16 → s.fault.kind = none →
      exec (.call nnn) s = .next (s.faulted .stackOverflow (encode (.call nnn))))

/-- JP (R101): `PC` becomes `nnn`, and nothing else changes. -/
def Obligations.JumpGoesToItsTarget : Prop :=
  ∀ (s : State) (nnn : Word),
    ∃ t, exec (.jp nnn) s = .next t ∧ Executes s t nnn ∧ KeepsRegisters s t ∧ KeepsAllButRegisters s t

/-- JPV0 (R107): `PC` becomes the sum of `nnn` and `V0`, and nothing else changes. That the sum is not reduced modulo 4096 is
the spec's decision D22. -/
def Obligations.JumpPlusV0GoesToTheSum : Prop :=
  ∀ (s : State) (nnn : Word), nnn.toNat < 4096 →
    ∃ t, exec (.jpv0 nnn) s = .next t ∧ t.pc.toNat = nnn.toNat + (s.getV 0).toNat ∧ Executes s t t.pc ∧
      KeepsRegisters s t ∧ KeepsAllButRegisters s t

/-- SEI, SNEI, SE, SNE (R103 to R106): `pc + 4` when the condition holds, else `pc + 2`, and nothing else changes. That
both count from the instruction's own address is the spec's decision D5. -/
def Obligations.SkipsMoveByFourOrTwo : Prop :=
  ∀ (s : State) (x y : Reg) (kk : Byte),
    (∃ t, exec (.sei x kk) s = .next t ∧ Executes s t (if s.getV x = kk then s.pc + 4 else s.pc + 2) ∧
      KeepsRegisters s t ∧ KeepsAllButRegisters s t) ∧
    (∃ t, exec (.snei x kk) s = .next t ∧ Executes s t (if s.getV x ≠ kk then s.pc + 4 else s.pc + 2) ∧
      KeepsRegisters s t ∧ KeepsAllButRegisters s t) ∧
    (∃ t, exec (.se x y) s = .next t ∧ Executes s t (if s.getV x = s.getV y then s.pc + 4 else s.pc + 2) ∧
      KeepsRegisters s t ∧ KeepsAllButRegisters s t) ∧
    (∃ t, exec (.sne x y) s = .next t ∧ Executes s t (if s.getV x ≠ s.getV y then s.pc + 4 else s.pc + 2) ∧
      KeepsRegisters s t ∧ KeepsAllButRegisters s t)

/-- CALLs at any sites, then RETs: the k-th RET resumes after the k-th last CALL, all of them restore `SP`, and from an
empty stack one more RET raises StackUnderflow (R108). -/
def Obligations.CallsAndReturnsNest : Prop :=
  ∀ (s : State) (cs : List (Word × Word)), s.fault.kind = none → s.sp.val + cs.length ≤ 16 →
    ∃ t, callAll cs s = .next t ∧ t.sp.val = s.sp.val + cs.length ∧
      (∀ k, 1 ≤ k → k ≤ cs.length → ∃ u, returnAll k t = .next u ∧
        u.sp.val + k = s.sp.val + cs.length ∧ (cs[cs.length - k]?).map (fun c => c.1 + 2) = some u.pc) ∧
      (∃ u, returnAll cs.length t = .next u ∧ u.sp = s.sp ∧
        (s.sp.val = 0 → exec .ret u = .next (u.faulted .stackUnderflow 0x00EE)))

/-! ### Loads and ALU -/

/-- LDI (41_load_alu.md R125), ADDI (R126, modulo 256 and no flag) and LD (R127) write `Vx` and nothing else. -/
def Obligations.LoadsWriteTheDestination : Prop :=
  ∀ (s : State) (x y : Reg) (kk : Byte),
    (∃ t, exec (.ldi x kk) s = .next t ∧ t.getV x = kk ∧ Executes s t (s.pc + 2) ∧
      KeepsRegistersBut (· = x) s t ∧ KeepsAllButRegisters s t) ∧
    (∃ t, exec (.addi x kk) s = .next t ∧ (t.getV x).toNat = ((s.getV x).toNat + kk.toNat) % 256 ∧
      Executes s t (s.pc + 2) ∧ KeepsRegistersBut (· = x) s t ∧ KeepsAllButRegisters s t) ∧
    (∃ t, exec (.ld x y) s = .next t ∧ t.getV x = s.getV y ∧ Executes s t (s.pc + 2) ∧
      KeepsRegistersBut (· = x) s t ∧ KeepsAllButRegisters s t)

/-- OR, AND, XOR (R128 to R130): the bitwise result of the old operands in `Vx`, and `VF` cleared, which is what remains
when `x` is 15, since the source's row writes it last. -/
def Obligations.LogicClearsVF : Prop :=
  ∀ (s : State) (x y : Reg),
    (∃ t, exec (.or x y) s = .next t ∧ (x ≠ 15 → t.getV x = s.getV x ||| s.getV y) ∧ t.getV 15 = 0 ∧
      Executes s t (s.pc + 2) ∧ KeepsRegistersBut (fun r => r = x ∨ r = 15) s t ∧ KeepsAllButRegisters s t) ∧
    (∃ t, exec (.and x y) s = .next t ∧ (x ≠ 15 → t.getV x = s.getV x &&& s.getV y) ∧ t.getV 15 = 0 ∧
      Executes s t (s.pc + 2) ∧ KeepsRegistersBut (fun r => r = x ∨ r = 15) s t ∧ KeepsAllButRegisters s t) ∧
    (∃ t, exec (.xor x y) s = .next t ∧ (x ≠ 15 → t.getV x = s.getV x ^^^ s.getV y) ∧ t.getV 15 = 0 ∧
      Executes s t (s.pc + 2) ∧ KeepsRegistersBut (fun r => r = x ∨ r = 15) s t ∧ KeepsAllButRegisters s t)

/-- ADD (R131): the sum modulo 256 in `Vx` and the carry in `VF`, both from the old operands; the carry remains when `x` is
15, which is the spec's decision D10, and the old `VF` is the operand when `y` is 15, its decision D11 (R121, R122, log entry
13). -/
def Obligations.AddLeavesTheCarry : Prop :=
  ∀ (s : State) (x y : Reg), ∃ t, exec (.add x y) s = .next t ∧
    (x ≠ 15 → (t.getV x).toNat = ((s.getV x).toNat + (s.getV y).toNat) % 256) ∧
    t.getV 15 = (if (s.getV x).toNat + (s.getV y).toNat > 255 then 1 else 0) ∧
    Executes s t (s.pc + 2) ∧ KeepsRegistersBut (fun r => r = x ∨ r = 15) s t ∧ KeepsAllButRegisters s t

/-- SUB (R132) and SUBN (R136): the difference modulo 256 in `Vx` and not-borrow in `VF`, both from the old operands; the
flag remains when `x` is 15, which is the spec's decision D10, and the old `VF` is the operand when `y` is 15, its decision
D11 (R121, R122, log entry 13). -/
def Obligations.SubtractionsLeaveNotBorrow : Prop :=
  ∀ (s : State) (x y : Reg),
    (∃ t, exec (.sub x y) s = .next t ∧
      (x ≠ 15 → (t.getV x).toNat = ((s.getV x).toNat + 256 - (s.getV y).toNat) % 256) ∧
      t.getV 15 = (if (s.getV x).toNat ≥ (s.getV y).toNat then 1 else 0) ∧
      Executes s t (s.pc + 2) ∧ KeepsRegistersBut (fun r => r = x ∨ r = 15) s t ∧ KeepsAllButRegisters s t) ∧
    (∃ t, exec (.subn x y) s = .next t ∧
      (x ≠ 15 → (t.getV x).toNat = ((s.getV y).toNat + 256 - (s.getV x).toNat) % 256) ∧
      t.getV 15 = (if (s.getV y).toNat ≥ (s.getV x).toNat then 1 else 0) ∧
      Executes s t (s.pc + 2) ∧ KeepsRegistersBut (fun r => r = x ∨ r = 15) s t ∧ KeepsAllButRegisters s t)

/-- SHR (R135) and SHL (R139): the source, `Vy` or under `QUIRK_SHIFT_IN_PLACE` the old `Vx`, moved by one bit into `Vx`, and
the bit shifted out in `VF`, which remains when `x` is 15. What the toggle does to the flag is the spec's decision D12
(log entry 15), that the lost bit remains when `x` is 15 its decision D10 (R121), and that the old `VF` is shifted when `y` is
15 its decision D11 (R122, log entry 13). -/
def Obligations.ShiftsMoveOneBit : Prop :=
  ∀ (s : State) (x y : Reg) (src : Byte), src = (if s.config.shiftInPlace then s.getV x else s.getV y) →
    (∃ t, exec (.shr x y) s = .next t ∧ (x ≠ 15 → (t.getV x).toNat = src.toNat / 2) ∧
      (t.getV 15).toNat = src.toNat % 2 ∧
      Executes s t (s.pc + 2) ∧ KeepsRegistersBut (fun r => r = x ∨ r = 15) s t ∧ KeepsAllButRegisters s t) ∧
    (∃ t, exec (.shl x y) s = .next t ∧ (x ≠ 15 → (t.getV x).toNat = src.toNat * 2 % 256) ∧
      (t.getV 15).toNat = src.toNat / 128 ∧
      Executes s t (s.pc + 2) ∧ KeepsRegistersBut (fun r => r = x ∨ r = 15) s t ∧ KeepsAllButRegisters s t)

/-- RND (R141): one draw, masked, in `Vx`; bits outside the mask are 0; nothing else changes. The draw is a free value of
the model (log entry 6, the spec's decision D20), and the statement holds whatever it is. -/
def Obligations.RandomByteIsMasked : Prop :=
  ∀ (s : State) (x : Reg) (kk : Byte), ∃ t, exec (.rnd x kk) s = .next t ∧
    t.getV x = Config.freeRnd s.draws &&& kk ∧ t.draws = s.draws + 1 ∧
    (∀ b, kk.getLsbD b = false → (t.getV x).getLsbD b = false) ∧
    Executes s t (s.pc + 2) ∧ KeepsRegistersBut (· = x) s t ∧
    KeepsIndex s t ∧ KeepsStack s t ∧ KeepsTimers s t ∧ KeepsMemory s t ∧ KeepsDisplay s t

/-! ### Index register and memory -/

/-- LDIX (42_index_memory.md R152) and ADDIX (R154, modulo 4096 and no flag) write `I` and nothing else. -/
def Obligations.IndexIsLoadedAndAddedTo : Prop :=
  ∀ (s : State) (x : Reg) (nnn : Word),
    (∃ t, exec (.ldix nnn) s = .next t ∧ t.i = nnn ∧ Executes s t (s.pc + 2) ∧
      KeepsRegisters s t ∧ KeepsStack s t ∧ KeepsTimers s t ∧ KeepsMemory s t ∧ KeepsDisplay s t ∧ KeepsDraws s t) ∧
    (∃ t, exec (.addix x) s = .next t ∧ t.i.toNat = (s.i.toNat + (s.getV x).toNat) % 4096 ∧ Executes s t (s.pc + 2) ∧
      KeepsRegisters s t ∧ KeepsStack s t ∧ KeepsTimers s t ∧ KeepsMemory s t ∧ KeepsDisplay s t ∧ KeepsDraws s t)

/-- FONT (R156) writes `Vx * 5` to `I` and nothing else. That the whole byte `Vx` is multiplied is the spec's decision D16. -/
def Obligations.FontPointsAtTheGlyph : Prop :=
  ∀ (s : State) (x : Reg),
    ∃ t, exec (.font x) s = .next t ∧ t.i.toNat = (s.getV x).toNat * 5 ∧ Executes s t (s.pc + 2) ∧
      KeepsRegisters s t ∧ KeepsStack s t ∧ KeepsTimers s t ∧ KeepsMemory s t ∧ KeepsDisplay s t ∧ KeepsDraws s t

/-- BCD (R158): the three decimal digits at `I`, `I + 1`, `I + 2`, and no other byte; past 0xFFF, AddressOutOfRange and no
byte written, which is the spec's decision D6 (log entry 13). -/
def Obligations.BcdStoresThreeDigits : Prop :=
  ∀ (s : State) (x : Reg),
    (s.i.toNat + 2 ≤ 0xFFF → ∃ t, exec (.bcd x) s = .next t ∧
      (t.readByte s.i.toNat).toNat = (s.getV x).toNat / 100 ∧
      (t.readByte (s.i.toNat + 1)).toNat = (s.getV x).toNat / 10 % 10 ∧
      (t.readByte (s.i.toNat + 2)).toNat = (s.getV x).toNat % 10 ∧
      KeepsMemoryOutside s.i.toNat 3 s t ∧ Executes s t (s.pc + 2) ∧
      KeepsRegisters s t ∧ KeepsIndex s t ∧ KeepsStack s t ∧ KeepsTimers s t ∧ KeepsDisplay s t ∧ KeepsDraws s t) ∧
    (s.i.toNat + 2 > 0xFFF → s.fault.kind = none →
      exec (.bcd x) s = .next (s.faulted .addressOutOfRange (encode (.bcd x))))

/-- STM (R162): `V0` to `Vx` at `I` to `I + x`, and no other byte; `I` kept, or moved by `x + 1` modulo 4096 under
`QUIRK_INDEX_AUTOINC`; past 0xFFF, AddressOutOfRange, no byte written and `I` kept. The fault is the spec's decision D6
(log entry 13), the increment `x + 1` modulo 4096 its decision D12 (log entry 15). -/
def Obligations.StmStoresTheRegisters : Prop :=
  ∀ (s : State) (x : Reg),
    (s.i.toNat + x.val ≤ 0xFFF → ∃ t, exec (.stm x) s = .next t ∧
      (∀ k : Reg, k.val ≤ x.val → t.readByte (s.i.toNat + k.val) = s.getV k) ∧
      KeepsMemoryOutside s.i.toNat (x.val + 1) s t ∧
      t.i.toNat = (if s.config.indexAutoInc then (s.i.toNat + x.val + 1) % 4096 else s.i.toNat) ∧
      Executes s t (s.pc + 2) ∧
      KeepsRegisters s t ∧ KeepsStack s t ∧ KeepsTimers s t ∧ KeepsDisplay s t ∧ KeepsDraws s t) ∧
    (s.i.toNat + x.val > 0xFFF → s.fault.kind = none →
      exec (.stm x) s = .next (s.faulted .addressOutOfRange (encode (.stm x))))

/-- LDM (R165): `V0` to `Vx` from `I` to `I + x`, the registers above `Vx` kept; `I` as for STM (decision D12,
log entry 15); past 0xFFF, AddressOutOfRange and no register changed, which is the spec's decision D6 (log entry 13). -/
def Obligations.LdmLoadsTheRegisters : Prop :=
  ∀ (s : State) (x : Reg),
    (s.i.toNat + x.val ≤ 0xFFF → ∃ t, exec (.ldm x) s = .next t ∧
      (∀ k : Reg, k.val ≤ x.val → t.getV k = s.readByte (s.i.toNat + k.val)) ∧
      KeepsRegistersBut (fun r => r.val ≤ x.val) s t ∧
      t.i.toNat = (if s.config.indexAutoInc then (s.i.toNat + x.val + 1) % 4096 else s.i.toNat) ∧
      Executes s t (s.pc + 2) ∧
      KeepsStack s t ∧ KeepsTimers s t ∧ KeepsMemory s t ∧ KeepsDisplay s t ∧ KeepsDraws s t) ∧
    (s.i.toNat + x.val > 0xFFF → s.fault.kind = none →
      exec (.ldm x) s = .next (s.faulted .addressOutOfRange (encode (.ldm x))))

/-- LDM after STM with the same `x` and `I` unchanged (default toggle) restores the registers, whatever they held in between
(R165, corner cases). -/
def Obligations.LdmAfterStmRestores : Prop :=
  ∀ (s : State) (x : Reg) (w : Vector Byte 16), s.config.indexAutoInc = false → s.i.toNat + x.val ≤ 0xFFF →
    ∃ t u, exec (.stm x) s = .next t ∧ exec (.ldm x) { t with v := w } = .next u ∧ u.i = s.i ∧
      ∀ k : Reg, u.getV k = if k.val ≤ x.val then s.getV k else w[k]

/-- A store into the instruction stream is seen by the very next fetch (20_memory.md R66): an STM that stores over the
instruction after it runs the word it stored. -/
def Obligations.StoreIsSeenByTheNextFetch : Prop :=
  ∀ (s : State) (x : Reg) (i : Instr), s.fault.kind = none → s.i.toNat = s.pc.toNat + 2 → 1 ≤ x.val →
    s.i.toNat + x.val ≤ 0xFFF → decodeWord (wordOfBytes (s.getV 0) (s.getV 1)) = .ok i →
    ∃ t, exec (.stm x) s = .next t ∧ step t = exec i t

/-- The canonical form is canonical: two memories in that form that read the same everywhere are the same data. The form
is the model's own (log entry 11). -/
def Obligations.MemoriesThatReadAlikeAreEqual : Prop :=
  ∀ (font : Font) (m n : Memory), Memory.wf font m → Memory.wf font n →
    (∀ a, Memory.read font m a = Memory.read font n a) → m = n

/-! ### Display -/

/-- CLS (43_display.md R172): every pixel 0 and nothing else changed, `VF` not written. -/
def Obligations.ClearScreenClearsEveryPixel : Prop :=
  ∀ s : State, ∃ t, exec .cls s = .next t ∧ (∀ r c, t.fb.pixel r c = false) ∧ Executes s t (s.pc + 2) ∧
    KeepsRegisters s t ∧ KeepsIndex s t ∧ KeepsStack s t ∧ KeepsTimers s t ∧ KeepsMemory s t ∧ KeepsDraws s t

/-- DRW (43_display.md R174 to R178) inverts exactly the pixels that set bits of the sprite land on, clipped or wrapped, sets
`VF` to 1 exactly when one of them was 1 and to 0 otherwise, and changes nothing else; when the sprite's last byte lies
above 0xFFF it raises AddressOutOfRange and draws nothing. The fault, height 0, all or nothing,
and the wrapped pixels are the spec's decisions D6, D13, D14, D12 (log entries 13, 15). -/
def Obligations.DrawXorsTheSprite : Prop :=
  ∀ (s : State) (x y : Reg) (n : Nat), n ≤ 15 →
    (n = 0 ∨ s.i.toNat + n - 1 ≤ 0xFFF → ∃ t, exec (.drw x y n) s = .next t ∧
      (∀ r c, s.covers (s.getV x) (s.getV y) n r c → t.fb.pixel r c = !s.fb.pixel r c) ∧
      (∀ r c, ¬ s.covers (s.getV x) (s.getV y) n r c → t.fb.pixel r c = s.fb.pixel r c) ∧
      (t.getV 15 = 0 ∨ t.getV 15 = 1) ∧
      (t.getV 15 = 1 ↔ ∃ r c, s.covers (s.getV x) (s.getV y) n r c ∧ s.fb.pixel r c = true) ∧
      Executes s t (s.pc + 2) ∧ KeepsRegistersBut (· = 15) s t ∧
      KeepsIndex s t ∧ KeepsStack s t ∧ KeepsTimers s t ∧ KeepsMemory s t ∧ KeepsDraws s t) ∧
    (n ≥ 1 → s.i.toNat + n - 1 > 0xFFF → s.fault.kind = none →
      exec (.drw x y n) s = .next (s.faulted .addressOutOfRange (encode (.drw x y n))))

/-- Two DRW with the same coordinates and sprite leave the framebuffer as it was; the second reports a collision exactly when
a set bit landed on a pixel that was 0 before the first (R179 (a)). -/
def Obligations.DrawTwiceRestoresTheScreen : Prop :=
  ∀ (s : State) (x y : Reg) (n : Nat), n ≤ 15 → (n = 0 ∨ s.i.toNat + n - 1 ≤ 0xFFF) →
    ∃ t, exec (.drw x y n) s = .next t ∧
      (t.getV x = s.getV x → t.getV y = s.getV y → ∃ u, exec (.drw x y n) { t with pc := s.pc } = .next u ∧
        u.fb = s.fb ∧
        (u.getV 15 = 1 ↔ ∃ r c, s.covers (s.getV x) (s.getV y) n r c ∧ s.fb.pixel r c = false))

/-- An 8 by 1 sprite of eight set bits at (60, 0) draws columns 60 to 63 of row 0; under `QUIRK_SPRITE_WRAP` also columns 0 to 3
(R179 (b), and (c), which the spec marks as derived). -/
def Obligations.SpriteAtTheRightEdge : Prop :=
  ∀ (s : State) (x y : Reg), s.getV x = 60 → s.getV y = 0 → s.i.toNat ≤ 0xFFF → s.readByte s.i.toNat = 0xFF →
    ∃ t, exec (.drw x y 1) s = .next t ∧ ∀ r c,
      t.fb.pixel r c =
        if r.val = 0 ∧ (c.val ≥ 60 ∨ (s.config.spriteWrap = true ∧ c.val ≤ 3)) then !s.fb.pixel r c
        else s.fb.pixel r c

/-! ### Keys and timers -/

/-- SKP (44_keys_timers.md R192) and SKNP (R193): `pc + 4` when key `Vx` is pressed, or not pressed, else `pc + 2`; nothing else
changes. With `Vx` above 15, InvalidKeyIndex: the spec's decision D15 (log entry
13). -/
def Obligations.KeySkipsTestTheKey : Prop :=
  ∀ (s : State) (x : Reg),
    (∀ k : Key, (s.getV x).toNat = k.val →
      (∃ t, exec (.skp x) s = .next t ∧ Executes s t (if s.key[k] = true then s.pc + 4 else s.pc + 2) ∧
        KeepsRegisters s t ∧ KeepsAllButRegisters s t) ∧
      (∃ t, exec (.sknp x) s = .next t ∧ Executes s t (if s.key[k] = false then s.pc + 4 else s.pc + 2) ∧
        KeepsRegisters s t ∧ KeepsAllButRegisters s t)) ∧
    ((s.getV x).toNat > 15 → s.fault.kind = none →
      exec (.skp x) s = .next (s.faulted .invalidKeyIndex (encode (.skp x))) ∧
      exec (.sknp x) s = .next (s.faulted .invalidKeyIndex (encode (.sknp x))))

/-- WKEY (R195): with no key pressed nothing changes but `AWAIT` (and the model's own `started`, log entry 7); else `Vx` is the
lowest pressed key's index and `PC` advances. That a held key resolves at once and is not cleared is the spec's decision
D17. -/
def Obligations.WaitForKeyTakesTheLowest : Prop :=
  ∀ (s : State) (x : Reg),
    ((∀ k : Key, s.key[k] = false) → exec (.wkey x) s = .next { s with await := true, started := true }) ∧
    (∀ k : Key, s.key[k] = true → (∀ p : Key, p.val < k.val → s.key[p] = false) →
      ∃ t, exec (.wkey x) s = .next t ∧ (t.getV x).toNat = k.val ∧ Executes s t (s.pc + 2) ∧
        KeepsRegistersBut (· = x) s t ∧ KeepsAllButRegisters s t)

/-- LDDT (R198), STDT (R199), STST (R200) copy one byte between a register and a timer and change nothing else. -/
def Obligations.TimerInstructionsCopyOneByte : Prop :=
  ∀ (s : State) (x : Reg),
    (∃ t, exec (.lddt x) s = .next t ∧ t.getV x = s.dt ∧ Executes s t (s.pc + 2) ∧
      KeepsRegistersBut (· = x) s t ∧ KeepsAllButRegisters s t) ∧
    (∃ t, exec (.stdt x) s = .next t ∧ t.dt = s.getV x ∧ t.st = s.st ∧ Executes s t (s.pc + 2) ∧ KeepsRegisters s t ∧
      KeepsIndex s t ∧ KeepsStack s t ∧ KeepsMemory s t ∧ KeepsDisplay s t ∧ KeepsDraws s t) ∧
    (∃ t, exec (.stst x) s = .next t ∧ t.st = s.getV x ∧ t.dt = s.dt ∧ Executes s t (s.pc + 2) ∧ KeepsRegisters s t ∧
      KeepsIndex s t ∧ KeepsStack s t ∧ KeepsMemory s t ∧ KeepsDisplay s t ∧ KeepsDraws s t)

/-! ### What no instruction writes -/

/-- An instruction changes only the general registers that R22 and R23 of 10_state.md list for it (R23 is
marked as derived by the spec). -/
def Obligations.OnlyListedRegistersAreWritten : Prop :=
  ∀ (i : Instr) (s t : State) (r : Reg), exec i s = .next t → writesRegister i r = false → t.getV r = s.getV r

/-- Only DRW and CLS change the framebuffer, only BCD and STM memory, only CALL and RET the stack, only STDT and STST the
timers, no instruction the key latch (10_state.md R28 to R33, R36). That WKEY does not write the key latch is the spec's
decision D17, that RET leaves the entry it pops its decision D35 (log entry 13). -/
def Obligations.EachPieceHasItsWriters : Prop :=
  ∀ (i : Instr) (s t : State), exec i s = .next t →
    (t.fb ≠ s.fb → i = .cls ∨ ∃ x y n, i = .drw x y n) ∧
    ((∃ a, t.readByte a ≠ s.readByte a) → ∃ x, i = .bcd x ∨ i = .stm x) ∧
    (t.stack ≠ s.stack → ∃ nnn, i = .call nnn) ∧
    (t.sp ≠ s.sp → i = .ret ∨ ∃ nnn, i = .call nnn) ∧
    (t.dt ≠ s.dt → ∃ x, i = .stdt x) ∧ (t.st ≠ s.st → ∃ x, i = .stst x) ∧
    (t.i ≠ s.i → (∃ nnn, i = .ldix nnn) ∨ (∃ x, i = .addix x ∨ i = .font x) ∨
      (s.config.indexAutoInc = true ∧ ∃ x, i = .stm x ∨ i = .ldm x)) ∧
    t.key = s.key

/-- No instruction reads `ST` (10_state.md R31) and no rule reads `AWAIT` (R38, the spec's decision D18, log entry 13): two
states that differ only there go to states that differ only there. -/
def Obligations.SoundTimerAndAwaitAreNeverRead : Prop :=
  ∀ (i : Instr) (s : State) (b : Byte) (w : Bool), ∃ t u, exec i s = .next t ∧
    exec i { s with st := b, await := w } = .next u ∧ { u with st := t.st, await := t.await } = t

/-! ### The environment's operations -/

/-- `TICK` (60_exceptions.md R232), in every state: both timers down by one, not below zero; `TONE` exactly when it finds
`ST = 1`; nothing else changes. -/
def Obligations.TickCountsDown : Prop :=
  ∀ s : State, ∃ t, operate .tick s = .next (t, .tone (decide (s.st.toNat = 1))) ∧
    t.dt.toNat = s.dt.toNat - 1 ∧ t.st.toNat = s.st.toNat - 1 ∧ t = { s with dt := t.dt, st := t.st }

/-- A sound timer of `v >= 1` gives exactly one `TONE`, on the `v`-th following `TICK`, a sound timer of 0 none (R234, read
with the spec's decision D21); both timers fall by one a `TICK` and stop at 0. -/
def Obligations.OneToneOnTheLastTick : Prop :=
  ∀ (n : Nat) (s : State), ∃ t rs, runOps (List.replicate n .tick) s = .next (t, rs) ∧ rs.length = n ∧
    (∀ k, k < n → rs[k]? = some (.tone (decide (k + 1 = s.st.toNat)))) ∧
    t.dt.toNat = s.dt.toNat - n ∧ t.st.toNat = s.st.toNat - n

/-- One tick interval is one `STEP` and one `TICK` in the order `TICK_ORDER` (R233, the spec's decision D19). -/
def Obligations.TickIntervalIsOneStepAndOneTick : Prop :=
  ∀ s : State,
    (s.config.tickOrder = .stepFirst → ∃ t, step s = .next t ∧
      tickInterval s = .next (t.doTick, [stepResponse s t, .tone t.tone])) ∧
    (s.config.tickOrder = .tickFirst → ∃ t, step s.doTick = .next t ∧
      tickInterval s = .next (t, [.tone s.tone, stepResponse s.doTick t]))

/-- With the one `TICK` that lies between consecutive `STEP`s, STDT of `v` followed at once by LDDT reads `max(v - 1, 0)`
(R233, decision D19). -/
def Obligations.TimerReadsBackOneLess : Prop :=
  ∀ (s : State) (x y : Reg), ∃ t u, exec (.stdt x) s = .next t ∧ exec (.lddt y) t.doTick = .next u ∧
    (u.getV y).toNat = (s.getV x).toNat - 1

/-- `KEY_SET` and `KEY_CLEAR` (60_exceptions.md R236) write one key and nothing else; an index above 15 raises
InvalidKeyIndex (R216). That an environment-side fault halts the machine, with `addr` the `PC` and `op` 0, is the spec's
decisions D32 and D33 (R214, log entry 13). -/
def Obligations.KeyOperationsWriteOneKey : Prop :=
  ∀ s : State,
    (∀ k : Key, (∃ t, operate (.keySet k.val) s = .next (t, .done) ∧ t.key[k] = true ∧
        (∀ j : Key, j ≠ k → t.key[j] = s.key[j]) ∧ t = { s with key := t.key }) ∧
      (∃ t, operate (.keyClear k.val) s = .next (t, .done) ∧ t.key[k] = false ∧
        (∀ j : Key, j ≠ k → t.key[j] = s.key[j]) ∧ t = { s with key := t.key })) ∧
    (∀ n, n > 15 → s.fault.kind = none →
      operate (.keySet n) s = .next (s.faulted .invalidKeyIndex 0, .fault .invalidKeyIndex) ∧
      operate (.keyClear n) s = .next (s.faulted .invalidKeyIndex 0, .fault .invalidKeyIndex))

/-- `KEY_READ` (R237) answers the key and changes nothing; an index above 15 raises InvalidKeyIndex. The operation is
the spec's decision D36, what its fault latches the decisions D32 and D33 (R214, log entry 13). -/
def Obligations.KeyReadAnswersTheKey : Prop :=
  ∀ s : State, (∀ k : Key, operate (.keyRead k.val) s = .next (s, .bit s.key[k])) ∧
    (∀ n, n > 15 → s.fault.kind = none →
      operate (.keyRead n) s = .next (s.faulted .invalidKeyIndex 0, .fault .invalidKeyIndex))

/-- `FB_READ` (R239) answers the 2048 pixels in row-major order (10_state.md R34) and changes nothing. -/
def Obligations.SnapshotIsRowMajor : Prop :=
  ∀ s : State, ∃ bs, operate .fbRead s = .next (s, .pixels bs) ∧ bs.length = 2048 ∧
    ∀ (r : Fin 32) (c : Fin 64), bs[r.val * 64 + c.val]? = some (s.fb.pixel r c)

/-- `LOAD` before the first `STEP` (70_reset_and_hazards.md R253): the bytes from 0x200 up and nothing else; more than 3584
bytes raise ProgramTooLarge and none is copied (decision D29, and D32, D33 for what the fault latches, log entry 13). That it is before the first `STEP` is the model's `started = false` (log
entry 7). -/
def Obligations.LoadCopiesTheProgram : Prop :=
  ∀ (s : State) (bytes : List Byte), s.started = false → s.fault.kind = none →
    (bytes.length ≤ 3584 → ∃ t, operate (.load bytes) s = .next (t, .done) ∧
      (∀ k, k < bytes.length → some (t.readByte (0x200 + k)) = bytes[k]?) ∧
      KeepsMemoryOutside 0x200 bytes.length s t ∧ t = { s with mem := t.mem }) ∧
    (bytes.length > 3584 →
      operate (.load bytes) s = .next (s.faulted .programTooLarge 0, .fault .programTooLarge))

/-- A `LOAD` after a `STEP` of the run, or in the halted state, has no meaning (20_memory.md R68, 60_exceptions.md R221):
after any `STEP`, whatever its outcome, `LOAD` is refused. The refusal is the spec's decision D24, the field that remembers
the `STEP` the model's (log entry 7). -/
def Obligations.LateLoadIsRefused : Prop :=
  ∀ (s t : State) (r : Response) (bytes : List Byte), operate .step s = .next (t, r) →
    operate (.load bytes) t = .refused .lateLoad

/-- `RESET` from any state (10_state.md R40, 70_reset_and_hazards.md R250): every piece of state at its reset value, memory the
font and zero; the parameters are not changed. The values of `PC`, the stack's entries, `FB`, `KEY`, `AWAIT` and `FAULT` are
the spec's decisions D2 and D3 (log entry 10). -/
def Obligations.ResetGivesEveryPieceItsValue : Prop :=
  ∀ s : State, ∃ t, operate .reset s = .next (t, .done) ∧
    (∀ r, t.getV r = 0) ∧ t.i = 0 ∧ t.pc = 0x200 ∧ t.sp.val = 0 ∧ (∀ k : Fin 16, t.stack[k] = 0) ∧ t.dt = 0 ∧ t.st = 0 ∧
    (∀ a, ∀ h : a < 80, t.readByte a = s.config.font[a]) ∧ (∀ a, 80 ≤ a → t.readByte a = 0) ∧
    (∀ r c, t.fb.pixel r c = false) ∧ (∀ k : Key, t.key[k] = false) ∧ t.await = false ∧
    t.fault = { kind := none, addr := 0, op := 0 } ∧ t.config = s.config

/-- No operation changes a construction parameter (00_scope.md R8, R9). -/
def Obligations.ParametersNeverChange : Prop :=
  ∀ (o : Operation) (s t : State) (r : Response), operate o s = .next (t, r) → t.config = s.config

/-! ### Runs -/

/-- The invariant of the block holds after reset (10_state.md R42). -/
def Obligations.ResetStateMeetsTheInvariant : Prop := State.reset.Inv

/-- Every `STEP` keeps the invariant of the block (R42). -/
def Obligations.StepKeepsTheInvariant : Prop := ∀ s t : State, s.Inv → step s = .next t → t.Inv

/-- Every history of operations keeps the invariant of the block (R42: "after `RESET` and after every operation"). -/
def Obligations.HistoriesKeepTheInvariant : Prop :=
  ∀ (ops : List Operation) (s t : State) (rs : List Response), s.Inv → runOps ops s = .next (t, rs) → t.Inv

/-- Once halted, a machine stays as it is but for its timers and keys until `RESET`: no other operation clears `FAULT`, moves
`PC` or writes anything else (60_exceptions.md R220, R221, decision D8). -/
def Obligations.HaltedUntilReset : Prop :=
  ∀ (ops : List Operation) (s t : State) (rs : List Response), s.fault.kind ≠ none → Operation.reset ∉ ops →
    runOps ops s = .next (t, rs) → t = { s with dt := t.dt, st := t.st, key := t.key }

/-- A program that has ended (70_reset_and_hazards.md R266 (c)) stays ended: every later `STEP` answers `Executed` and leaves
`PC` where it is, and a `TICK` changes nothing of that. The definition of the end is the spec's convention. -/
def Obligations.EndedProgramStaysEnded : Prop :=
  ∀ s : State, s.ended → ∃ t, operate .step s = .next (t, .executed) ∧
    t = { s with await := false, started := true } ∧ t.ended ∧ t.doTick.ended
end

