-- ==== Sys2Proof/Laws/Decode.lean ====
section
/-! SUPPORT. Fields as numbers, and words as their bytes. -/

namespace Sys2Proof

theorem bits_lt (v : Word) (hi lo : Nat) : bits v hi lo < 2 ^ (hi - lo + 1) :=
  Nat.mod_lt _ (Nat.two_pow_pos _)

/-- The four nibbles of a word make it up again. -/
theorem toNat_eq_nibbles (v : Word) :
    v.toNat = bits v 15 12 * 4096 + bits v 11 8 * 256 + bits v 7 4 * 16 + bits v 3 0 := by
  have := v.isLt
  simp only [bits, Nat.reducePow, Nat.reduceSub, Nat.reduceAdd, Nat.div_one]
  omega

theorem bits_7_0 (v : Word) : bits v 7 0 = bits v 7 4 * 16 + bits v 3 0 := by
  simp only [bits, Nat.reducePow, Nat.reduceSub, Nat.reduceAdd, Nat.div_one]
  omega

theorem bits_11_0 (v : Word) : bits v 11 0 = bits v 11 8 * 256 + bits v 7 4 * 16 + bits v 3 0 := by
  simp only [bits, Nat.reducePow, Nat.reduceSub, Nat.reduceAdd, Nat.div_one]
  omega

/-- Storing a word as its two bytes and reading it back gives the word (20_memory.md R54). -/
@[simp] theorem wordOfBytes_high_low (w : Word) : wordOfBytes (highByte w) (lowByte w) = w := by
  apply BitVec.eq_of_toNat_eq
  have := w.isLt
  simp only [wordOfBytes, highByte, lowByte, BitVec.toNat_ofNat]
  omega

theorem highByte_wordOfBytes (hi lo : Byte) : highByte (wordOfBytes hi lo) = hi := by
  apply BitVec.eq_of_toNat_eq
  have := hi.isLt
  have := lo.isLt
  simp only [wordOfBytes, highByte, BitVec.toNat_ofNat]
  omega

theorem lowByte_wordOfBytes (hi lo : Byte) : lowByte (wordOfBytes hi lo) = lo := by
  apply BitVec.eq_of_toNat_eq
  have := hi.isLt
  have := lo.isLt
  simp only [wordOfBytes, lowByte, BitVec.toNat_ofNat]
  omega

/-- The decoder on a word's two bytes is the decoder on the word. -/
theorem decode_bytes (w : Word) (rest : List Byte) :
    decode (highByte w :: lowByte w :: rest) =
      match decodeWord w with
      | .ok i    => .ok (i, rest)
      | .error r => .error r := by
  show (match decodeWord (wordOfBytes (highByte w) (lowByte w)) with
    | .ok i    => Except.ok (i, rest)
    | .error r => .error r) = _
  rw [wordOfBytes_high_low]

end Sys2Proof
end

