-- ==== Sys2Proof/Laws/State.lean ====
section
/-! SUPPORT. What each update of State leaves in each field, by rfl: no proof needs to unfold an update. -/

namespace Sys2Proof.Machine

/-! ### `setV` -/

@[simp] theorem State.getV_setV_same (s : State) (x : Reg) (b : Byte) : (s.setV x b).getV x = b := by
  simp [State.getV, State.setV]

theorem State.getV_setV_other (s : State) {x r : Reg} (b : Byte) (h : r ≠ x) : (s.setV x b).getV r = s.getV r := by
  have : x.val ≠ r.val := fun e => h (Fin.ext e.symm)
  simp [State.getV, State.setV, this]

theorem State.getV_setV (s : State) (x r : Reg) (b : Byte) :
    (s.setV x b).getV r = if r = x then b else s.getV r := by
  split
  · next h => subst h; exact s.getV_setV_same r b
  · next h => exact s.getV_setV_other b h

@[simp] theorem State.setV_i (s : State) (x : Reg) (b : Byte) : (s.setV x b).i = s.i := rfl
@[simp] theorem State.setV_pc (s : State) (x : Reg) (b : Byte) : (s.setV x b).pc = s.pc := rfl
@[simp] theorem State.setV_stack (s : State) (x : Reg) (b : Byte) : (s.setV x b).stack = s.stack := rfl
@[simp] theorem State.setV_sp (s : State) (x : Reg) (b : Byte) : (s.setV x b).sp = s.sp := rfl
@[simp] theorem State.setV_dt (s : State) (x : Reg) (b : Byte) : (s.setV x b).dt = s.dt := rfl
@[simp] theorem State.setV_st (s : State) (x : Reg) (b : Byte) : (s.setV x b).st = s.st := rfl
@[simp] theorem State.setV_mem (s : State) (x : Reg) (b : Byte) : (s.setV x b).mem = s.mem := rfl
@[simp] theorem State.setV_fb (s : State) (x : Reg) (b : Byte) : (s.setV x b).fb = s.fb := rfl
@[simp] theorem State.setV_key (s : State) (x : Reg) (b : Byte) : (s.setV x b).key = s.key := rfl
@[simp] theorem State.setV_await (s : State) (x : Reg) (b : Byte) : (s.setV x b).await = s.await := rfl
@[simp] theorem State.setV_fault (s : State) (x : Reg) (b : Byte) : (s.setV x b).fault = s.fault := rfl
@[simp] theorem State.setV_started (s : State) (x : Reg) (b : Byte) : (s.setV x b).started = s.started := rfl
@[simp] theorem State.setV_draws (s : State) (x : Reg) (b : Byte) : (s.setV x b).draws = s.draws := rfl
@[simp] theorem State.setV_config (s : State) (x : Reg) (b : Byte) : (s.setV x b).config = s.config := rfl

/-! ### `setResultAndFlag` -/

theorem State.getV_setResultAndFlag (s : State) (x r : Reg) (b f : Byte) :
    (s.setResultAndFlag x b f).getV r = if r = vf then f else if r = x then b else s.getV r := by
  simp [State.setResultAndFlag, State.getV_setV]

@[simp] theorem State.setResultAndFlag_i (s : State) (x : Reg) (b f : Byte) : (s.setResultAndFlag x b f).i = s.i := rfl
@[simp] theorem State.setResultAndFlag_pc (s : State) (x : Reg) (b f : Byte) : (s.setResultAndFlag x b f).pc = s.pc := rfl
@[simp] theorem State.setResultAndFlag_stack (s : State) (x : Reg) (b f : Byte) : (s.setResultAndFlag x b f).stack = s.stack := rfl
@[simp] theorem State.setResultAndFlag_sp (s : State) (x : Reg) (b f : Byte) : (s.setResultAndFlag x b f).sp = s.sp := rfl
@[simp] theorem State.setResultAndFlag_dt (s : State) (x : Reg) (b f : Byte) : (s.setResultAndFlag x b f).dt = s.dt := rfl
@[simp] theorem State.setResultAndFlag_st (s : State) (x : Reg) (b f : Byte) : (s.setResultAndFlag x b f).st = s.st := rfl
@[simp] theorem State.setResultAndFlag_mem (s : State) (x : Reg) (b f : Byte) : (s.setResultAndFlag x b f).mem = s.mem := rfl
@[simp] theorem State.setResultAndFlag_fb (s : State) (x : Reg) (b f : Byte) : (s.setResultAndFlag x b f).fb = s.fb := rfl
@[simp] theorem State.setResultAndFlag_key (s : State) (x : Reg) (b f : Byte) : (s.setResultAndFlag x b f).key = s.key := rfl
@[simp] theorem State.setResultAndFlag_await (s : State) (x : Reg) (b f : Byte) : (s.setResultAndFlag x b f).await = s.await := rfl
@[simp] theorem State.setResultAndFlag_fault (s : State) (x : Reg) (b f : Byte) : (s.setResultAndFlag x b f).fault = s.fault := rfl
@[simp] theorem State.setResultAndFlag_started (s : State) (x : Reg) (b f : Byte) : (s.setResultAndFlag x b f).started = s.started := rfl
@[simp] theorem State.setResultAndFlag_draws (s : State) (x : Reg) (b f : Byte) : (s.setResultAndFlag x b f).draws = s.draws := rfl
@[simp] theorem State.setResultAndFlag_config (s : State) (x : Reg) (b f : Byte) : (s.setResultAndFlag x b f).config = s.config := rfl

/-! ### `setI` -/

@[simp] theorem State.setI_i (s : State) (w : Word) : (s.setI w).i = w := rfl
@[simp] theorem State.setI_v (s : State) (w : Word) : (s.setI w).v = s.v := rfl
@[simp] theorem State.setI_pc (s : State) (w : Word) : (s.setI w).pc = s.pc := rfl
@[simp] theorem State.setI_stack (s : State) (w : Word) : (s.setI w).stack = s.stack := rfl
@[simp] theorem State.setI_sp (s : State) (w : Word) : (s.setI w).sp = s.sp := rfl
@[simp] theorem State.setI_dt (s : State) (w : Word) : (s.setI w).dt = s.dt := rfl
@[simp] theorem State.setI_st (s : State) (w : Word) : (s.setI w).st = s.st := rfl
@[simp] theorem State.setI_mem (s : State) (w : Word) : (s.setI w).mem = s.mem := rfl
@[simp] theorem State.setI_fb (s : State) (w : Word) : (s.setI w).fb = s.fb := rfl
@[simp] theorem State.setI_key (s : State) (w : Word) : (s.setI w).key = s.key := rfl
@[simp] theorem State.setI_await (s : State) (w : Word) : (s.setI w).await = s.await := rfl
@[simp] theorem State.setI_fault (s : State) (w : Word) : (s.setI w).fault = s.fault := rfl
@[simp] theorem State.setI_started (s : State) (w : Word) : (s.setI w).started = s.started := rfl
@[simp] theorem State.setI_draws (s : State) (w : Word) : (s.setI w).draws = s.draws := rfl
@[simp] theorem State.setI_config (s : State) (w : Word) : (s.setI w).config = s.config := rfl

/-! ### `commit` -/

@[simp] theorem State.commit_pc (s : State) (p : Word) : (s.commit p).pc = p := rfl
@[simp] theorem State.commit_await (s : State) (p : Word) : (s.commit p).await = false := rfl
@[simp] theorem State.commit_started (s : State) (p : Word) : (s.commit p).started = true := rfl
@[simp] theorem State.commit_v (s : State) (p : Word) : (s.commit p).v = s.v := rfl
@[simp] theorem State.commit_i (s : State) (p : Word) : (s.commit p).i = s.i := rfl
@[simp] theorem State.commit_stack (s : State) (p : Word) : (s.commit p).stack = s.stack := rfl
@[simp] theorem State.commit_sp (s : State) (p : Word) : (s.commit p).sp = s.sp := rfl
@[simp] theorem State.commit_dt (s : State) (p : Word) : (s.commit p).dt = s.dt := rfl
@[simp] theorem State.commit_st (s : State) (p : Word) : (s.commit p).st = s.st := rfl
@[simp] theorem State.commit_mem (s : State) (p : Word) : (s.commit p).mem = s.mem := rfl
@[simp] theorem State.commit_fb (s : State) (p : Word) : (s.commit p).fb = s.fb := rfl
@[simp] theorem State.commit_key (s : State) (p : Word) : (s.commit p).key = s.key := rfl
@[simp] theorem State.commit_fault (s : State) (p : Word) : (s.commit p).fault = s.fault := rfl
@[simp] theorem State.commit_draws (s : State) (p : Word) : (s.commit p).draws = s.draws := rfl
@[simp] theorem State.commit_config (s : State) (p : Word) : (s.commit p).config = s.config := rfl

@[simp] theorem State.getV_commit (s : State) (p : Word) (r : Reg) : (s.commit p).getV r = s.getV r := rfl
@[simp] theorem State.getV_setI (s : State) (w : Word) (r : Reg) : (s.setI w).getV r = s.getV r := rfl
@[simp] theorem State.getV_storeBytes (s : State) (a : Nat) (bs : List Byte) (r : Reg) :
    (s.storeBytes a bs).getV r = s.getV r := rfl
@[simp] theorem State.getV_doTick (s : State) (r : Reg) : s.doTick.getV r = s.getV r := rfl
@[simp] theorem State.readByte_commit (s : State) (p : Word) (a : Nat) : (s.commit p).readByte a = s.readByte a := rfl
@[simp] theorem State.readByte_setI (s : State) (w : Word) (a : Nat) : (s.setI w).readByte a = s.readByte a := rfl
@[simp] theorem State.readByte_setV (s : State) (x : Reg) (b : Byte) (a : Nat) :
    (s.setV x b).readByte a = s.readByte a := rfl
@[simp] theorem State.readByte_doTick (s : State) (a : Nat) : s.doTick.readByte a = s.readByte a := rfl

/-! ### `storeBytes` -/

@[simp] theorem State.storeBytes_v (s : State) (a : Nat) (bs : List Byte) : (s.storeBytes a bs).v = s.v := rfl
@[simp] theorem State.storeBytes_i (s : State) (a : Nat) (bs : List Byte) : (s.storeBytes a bs).i = s.i := rfl
@[simp] theorem State.storeBytes_pc (s : State) (a : Nat) (bs : List Byte) : (s.storeBytes a bs).pc = s.pc := rfl
@[simp] theorem State.storeBytes_stack (s : State) (a : Nat) (bs : List Byte) : (s.storeBytes a bs).stack = s.stack := rfl
@[simp] theorem State.storeBytes_sp (s : State) (a : Nat) (bs : List Byte) : (s.storeBytes a bs).sp = s.sp := rfl
@[simp] theorem State.storeBytes_dt (s : State) (a : Nat) (bs : List Byte) : (s.storeBytes a bs).dt = s.dt := rfl
@[simp] theorem State.storeBytes_st (s : State) (a : Nat) (bs : List Byte) : (s.storeBytes a bs).st = s.st := rfl
@[simp] theorem State.storeBytes_fb (s : State) (a : Nat) (bs : List Byte) : (s.storeBytes a bs).fb = s.fb := rfl
@[simp] theorem State.storeBytes_key (s : State) (a : Nat) (bs : List Byte) : (s.storeBytes a bs).key = s.key := rfl
@[simp] theorem State.storeBytes_await (s : State) (a : Nat) (bs : List Byte) : (s.storeBytes a bs).await = s.await := rfl
@[simp] theorem State.storeBytes_fault (s : State) (a : Nat) (bs : List Byte) : (s.storeBytes a bs).fault = s.fault := rfl
@[simp] theorem State.storeBytes_started (s : State) (a : Nat) (bs : List Byte) : (s.storeBytes a bs).started = s.started := rfl
@[simp] theorem State.storeBytes_draws (s : State) (a : Nat) (bs : List Byte) : (s.storeBytes a bs).draws = s.draws := rfl
@[simp] theorem State.storeBytes_config (s : State) (a : Nat) (bs : List Byte) : (s.storeBytes a bs).config = s.config := rfl

/-! ### `latchFault` -/

@[simp] theorem State.latchFault_v (s : State) (k : Fault) (a w : Word) : (s.latchFault k a w).v = s.v := by
  unfold State.latchFault; split <;> rfl
@[simp] theorem State.latchFault_i (s : State) (k : Fault) (a w : Word) : (s.latchFault k a w).i = s.i := by
  unfold State.latchFault; split <;> rfl
@[simp] theorem State.latchFault_pc (s : State) (k : Fault) (a w : Word) : (s.latchFault k a w).pc = s.pc := by
  unfold State.latchFault; split <;> rfl
@[simp] theorem State.latchFault_stack (s : State) (k : Fault) (a w : Word) : (s.latchFault k a w).stack = s.stack := by
  unfold State.latchFault; split <;> rfl
@[simp] theorem State.latchFault_sp (s : State) (k : Fault) (a w : Word) : (s.latchFault k a w).sp = s.sp := by
  unfold State.latchFault; split <;> rfl
@[simp] theorem State.latchFault_dt (s : State) (k : Fault) (a w : Word) : (s.latchFault k a w).dt = s.dt := by
  unfold State.latchFault; split <;> rfl
@[simp] theorem State.latchFault_st (s : State) (k : Fault) (a w : Word) : (s.latchFault k a w).st = s.st := by
  unfold State.latchFault; split <;> rfl
@[simp] theorem State.latchFault_mem (s : State) (k : Fault) (a w : Word) : (s.latchFault k a w).mem = s.mem := by
  unfold State.latchFault; split <;> rfl
@[simp] theorem State.latchFault_fb (s : State) (k : Fault) (a w : Word) : (s.latchFault k a w).fb = s.fb := by
  unfold State.latchFault; split <;> rfl
@[simp] theorem State.latchFault_key (s : State) (k : Fault) (a w : Word) : (s.latchFault k a w).key = s.key := by
  unfold State.latchFault; split <;> rfl
@[simp] theorem State.latchFault_await (s : State) (k : Fault) (a w : Word) : (s.latchFault k a w).await = s.await := by
  unfold State.latchFault; split <;> rfl
@[simp] theorem State.latchFault_started (s : State) (k : Fault) (a w : Word) : (s.latchFault k a w).started = s.started := by
  unfold State.latchFault; split <;> rfl
@[simp] theorem State.latchFault_draws (s : State) (k : Fault) (a w : Word) : (s.latchFault k a w).draws = s.draws := by
  unfold State.latchFault; split <;> rfl
@[simp] theorem State.latchFault_config (s : State) (k : Fault) (a w : Word) : (s.latchFault k a w).config = s.config := by
  unfold State.latchFault; split <;> rfl

theorem State.latchFault_first (s : State) (k : Fault) (a w : Word) (h : s.fault.kind = none) :
    s.latchFault k a w = { s with fault := { kind := some k, addr := a, op := w } } := by
  simp [State.latchFault, h]

theorem State.latchFault_later (s : State) (k : Fault) (a w : Word) (h : s.fault.kind ≠ none) :
    s.latchFault k a w = s := by
  simp [State.latchFault, h]

/-! ### `doTick` -/

@[simp] theorem State.doTick_dt (s : State) : s.doTick.dt = countDown s.dt := rfl
@[simp] theorem State.doTick_st (s : State) : s.doTick.st = countDown s.st := rfl
@[simp] theorem State.doTick_v (s : State) : (s.doTick).v = s.v := rfl
@[simp] theorem State.doTick_i (s : State) : (s.doTick).i = s.i := rfl
@[simp] theorem State.doTick_pc (s : State) : (s.doTick).pc = s.pc := rfl
@[simp] theorem State.doTick_stack (s : State) : (s.doTick).stack = s.stack := rfl
@[simp] theorem State.doTick_sp (s : State) : (s.doTick).sp = s.sp := rfl
@[simp] theorem State.doTick_mem (s : State) : (s.doTick).mem = s.mem := rfl
@[simp] theorem State.doTick_fb (s : State) : (s.doTick).fb = s.fb := rfl
@[simp] theorem State.doTick_key (s : State) : (s.doTick).key = s.key := rfl
@[simp] theorem State.doTick_await (s : State) : (s.doTick).await = s.await := rfl
@[simp] theorem State.doTick_fault (s : State) : (s.doTick).fault = s.fault := rfl
@[simp] theorem State.doTick_started (s : State) : (s.doTick).started = s.started := rfl
@[simp] theorem State.doTick_draws (s : State) : (s.doTick).draws = s.draws := rfl
@[simp] theorem State.doTick_config (s : State) : (s.doTick).config = s.config := rfl

/-! ### `doReset` -/

@[simp] theorem State.doReset_config (s : State) : s.doReset.config = s.config := rfl
@[simp] theorem State.doReset_draws (s : State) : s.doReset.draws = s.draws := rfl
@[simp] theorem State.doReset_v (s : State) : s.doReset.v = State.reset.v := rfl
@[simp] theorem State.doReset_i (s : State) : s.doReset.i = State.reset.i := rfl
@[simp] theorem State.doReset_pc (s : State) : s.doReset.pc = State.reset.pc := rfl
@[simp] theorem State.doReset_stack (s : State) : s.doReset.stack = State.reset.stack := rfl
@[simp] theorem State.doReset_sp (s : State) : s.doReset.sp = State.reset.sp := rfl
@[simp] theorem State.doReset_dt (s : State) : s.doReset.dt = State.reset.dt := rfl
@[simp] theorem State.doReset_st (s : State) : s.doReset.st = State.reset.st := rfl
@[simp] theorem State.doReset_mem (s : State) : s.doReset.mem = State.reset.mem := rfl
@[simp] theorem State.doReset_fb (s : State) : s.doReset.fb = State.reset.fb := rfl
@[simp] theorem State.doReset_key (s : State) : s.doReset.key = State.reset.key := rfl
@[simp] theorem State.doReset_await (s : State) : s.doReset.await = State.reset.await := rfl
@[simp] theorem State.doReset_fault (s : State) : s.doReset.fault = State.reset.fault := rfl
@[simp] theorem State.doReset_started (s : State) : s.doReset.started = State.reset.started := rfl

/-! ### Memory is read through `mem` and `config` alone -/

/-- Two states with the same memory and parameters read the same everywhere. -/
theorem State.readByte_congr {s t : State} (hm : t.mem = s.mem) (hc : t.config = s.config) (a : Nat) :
    t.readByte a = s.readByte a := by simp [State.readByte, hm, hc]

/-- Two states with the same memory, parameters and `PC` fetch the same word. -/
theorem State.fetch_congr {s t : State} (hm : t.mem = s.mem) (hc : t.config = s.config) (hp : t.pc = s.pc) :
    t.fetch = s.fetch := by simp [State.fetch, State.readByte, hm, hc, hp]

end Sys2Proof.Machine
end

