-- ==== Sys2Proof/Laws/Memory.lean ====
section
/-! SUPPORT. Reads after writes, and the canonical form of memory under every memory operation. -/

namespace Sys2Proof.Machine

variable {font : Font} {m : Memory}

/-! ### Reads -/

theorem Memory.read_filter_same (m : Memory) (a : Nat) :
    Memory.read font (m.filter (fun c => c.1 != a)) a = background font a := by
  induction m with
  | nil => rfl
  | cons c m ih =>
    by_cases h : c.1 = a
    · simpa [h] using ih
    · have h' : a ≠ c.1 := fun e => h e.symm
      simp [h, Memory.read, h', ih]

theorem Memory.read_filter_other (m : Memory) {a a' : Nat} (h : a' ≠ a) :
    Memory.read font (m.filter (fun c => c.1 != a)) a' = Memory.read font m a' := by
  induction m with
  | nil => rfl
  | cons c m ih =>
    by_cases hc : c.1 = a
    · have : a' ≠ c.1 := hc ▸ h
      simp [hc, Memory.read, h, ih]
    · simp [hc, Memory.read, ih]

theorem Memory.read_insert_other (m : Memory) {a a' : Nat} (b : Byte) (h : a' ≠ a) :
    Memory.read font (Memory.insert m a b) a' = Memory.read font m a' := by
  induction m with
  | nil => simp [Memory.insert, Memory.read, h]
  | cons c m ih =>
    unfold Memory.insert
    split
    · simp [Memory.read, h]
    · simp [Memory.read, ih]

theorem Memory.read_insert_same {m : Memory} {a : Nat} (b : Byte) (h : ∀ c ∈ m, c.1 ≠ a) :
    Memory.read font (Memory.insert m a b) a = b := by
  induction m with
  | nil => simp [Memory.insert, Memory.read]
  | cons c m ih =>
    have hc : a ≠ c.1 := fun e => h c (by simp) e.symm
    unfold Memory.insert
    split
    · simp [Memory.read]
    · simp [Memory.read, hc, ih (fun c hm => h c (by simp [hm]))]

/-- A read of the written address gives the written byte, in every memory. -/
@[simp] theorem Memory.read_write_same (m : Memory) (a : Nat) (b : Byte) :
    Memory.read font (Memory.write font m a b) a = b := by
  unfold Memory.write
  split
  · next h => rw [Memory.read_filter_same, h]
  · exact Memory.read_insert_same b (by simp)

/-- A read of any other address gives what it gave before. -/
theorem Memory.read_write_other (m : Memory) {a a' : Nat} (b : Byte) (h : a' ≠ a) :
    Memory.read font (Memory.write font m a b) a' = Memory.read font m a' := by
  unfold Memory.write
  split
  · exact Memory.read_filter_other m h
  · rw [Memory.read_insert_other _ b h, Memory.read_filter_other m h]

/-- A read outside the bytes of a list write gives what it gave before. -/
theorem Memory.read_writeList_outside (bs : List Byte) (m : Memory) (a a' : Nat)
    (h : ¬ (a ≤ a' ∧ a' < a + bs.length)) :
    Memory.read font (Memory.writeList font m a bs) a' = Memory.read font m a' := by
  induction bs generalizing m a with
  | nil => rfl
  | cons b bs ih =>
    simp only [List.length_cons] at h
    rw [Memory.writeList, ih _ _ (by omega), Memory.read_write_other _ _ (by omega)]

/-- A read inside the bytes of a list write gives the byte written there. -/
theorem Memory.read_writeList_inside (bs : List Byte) (m : Memory) (a k : Nat) (h : k < bs.length) :
    Memory.read font (Memory.writeList font m a bs) (a + k) = bs[k] := by
  induction bs generalizing m a k with
  | nil => simp at h
  | cons b bs ih =>
    rw [Memory.writeList]
    cases k with
    | zero => rw [Memory.read_writeList_outside _ _ _ _ (by omega)]; simp
    | succ k => simpa [Nat.add_assoc, Nat.add_comm 1] using ih (Memory.write font m a b) (a + 1) k (by simpa using h)

/-! ### The canonical form -/

theorem Memory.wf_nil : Memory.wf font [] := by simp [Memory.wf]

theorem Memory.mem_insert {c : Host.Cell} {a : Nat} {b : Byte} :
    c ∈ Memory.insert m a b ↔ c = (a, b) ∨ c ∈ m := by
  induction m with
  | nil => simp [Memory.insert]
  | cons d m ih =>
    unfold Memory.insert
    split
    · simp
    · simp [ih, or_left_comm]

theorem Memory.pairwise_insert {a : Nat} {b : Byte} (h : m.Pairwise (fun p q => p.1 < q.1))
    (hne : ∀ c ∈ m, c.1 ≠ a) : (Memory.insert m a b).Pairwise (fun p q => p.1 < q.1) := by
  induction m with
  | nil => simp [Memory.insert]
  | cons d m ih =>
    have hd : d.1 ≠ a := hne d (by simp)
    rw [List.pairwise_cons] at h
    unfold Memory.insert
    split
    · next hlt =>
      refine List.pairwise_cons.2 ⟨fun c hc => ?_, List.pairwise_cons.2 h⟩
      rcases List.mem_cons.1 hc with rfl | hc
      · exact hlt
      · exact Nat.lt_trans hlt (h.1 c hc)
    · refine List.pairwise_cons.2 ⟨fun c hc => ?_, ih h.2 (fun c hc => hne c (by simp [hc]))⟩
      rcases Memory.mem_insert.1 hc with rfl | hc
      · show d.1 < a; omega
      · exact h.1 c hc

/-- A write inside the address space keeps the canonical form. -/
theorem Memory.wf_write {a : Nat} (b : Byte) (h : Memory.wf font m) (ha : a < memSize) :
    Memory.wf font (Memory.write font m a b) := by
  have hf : Memory.wf font (m.filter (fun c => c.1 != a)) :=
    ⟨h.1.filter _, fun c hc => h.2 c (List.mem_of_mem_filter hc)⟩
  unfold Memory.write
  split
  · exact hf
  · next hb =>
    refine ⟨Memory.pairwise_insert hf.1 (by simp), fun c hc => ?_⟩
    rcases Memory.mem_insert.1 hc with rfl | hc
    · exact ⟨ha, hb⟩
    · exact hf.2 c hc

/-- A list write inside the address space keeps the canonical form. -/
theorem Memory.wf_writeList (bs : List Byte) {a : Nat} (h : Memory.wf font m) (ha : a + bs.length ≤ memSize) :
    Memory.wf font (Memory.writeList font m a bs) := by
  induction bs generalizing m a with
  | nil => exact h
  | cons b bs ih =>
    simp only [List.length_cons] at ha
    exact ih (Memory.wf_write b h (by omega)) (by omega)

/-! ### On states -/

theorem State.readByte_storeBytes_outside (s : State) (a a' : Nat) (bs : List Byte)
    (h : ¬ (a ≤ a' ∧ a' < a + bs.length)) : (s.storeBytes a bs).readByte a' = s.readByte a' :=
  Memory.read_writeList_outside bs s.mem a a' h

theorem State.readByte_storeBytes_inside (s : State) (a k : Nat) (bs : List Byte) (h : k < bs.length) :
    (s.storeBytes a bs).readByte (a + k) = bs[k] :=
  Memory.read_writeList_inside bs s.mem a k h

@[simp] theorem State.length_readBytes (s : State) (a n : Nat) : (s.readBytes a n).length = n := by
  simp [State.readBytes]

@[simp] theorem State.getElem_readBytes (s : State) (a n k : Nat) (h : k < (s.readBytes a n).length) :
    (s.readBytes a n)[k] = s.readByte (a + k) := by
  simp [State.readBytes]

/-- After `RESET` every byte reads as the font or zero (10_state.md R40). -/
@[simp] theorem State.readByte_reset (a : Nat) : State.reset.readByte a = background defaultFont a := rfl

end Sys2Proof.Machine
end

