-- ==== Sys2Proof/Laws/Ops.lean ====
section
/-! SUPPORT. What each shared operation of Machine/Ops.lean can answer, said once. -/

namespace Sys2Proof.Machine

theorem inRange_iff {a n : Nat} : inRange a n = true ↔ n = 0 ∨ a + n ≤ memSize := by
  simp [inRange]

/-! ### Checked accesses -/

/-- A checked read answers the bytes exactly when the range is inside memory. -/
theorem State.memRead_eq_some {s : State} {a n : Nat} {bs : List Byte} :
    s.memRead a n = some bs ↔ (n = 0 ∨ a + n ≤ memSize) ∧ bs = s.readBytes a n := by
  unfold State.memRead
  split
  · next h => simp [inRange_iff.1 h, eq_comm]
  · next h => simp only [inRange_iff] at h; simp only [reduceCtorEq, h, false_and]

theorem State.memRead_eq_none {s : State} {a n : Nat} :
    s.memRead a n = none ↔ 0 < n ∧ memSize < a + n := by
  unfold State.memRead
  split
  · next h => have := inRange_iff.1 h; simp only [reduceCtorEq, false_iff]; omega
  · next h => simp only [inRange_iff] at h; simp only [true_iff]; omega

/-- A checked write answers the stored state exactly when the range is inside memory. -/
theorem State.memWrite_eq_some {s t : State} {a : Nat} {bs : List Byte} :
    s.memWrite a bs = some t ↔ (bs.length = 0 ∨ a + bs.length ≤ memSize) ∧ t = s.storeBytes a bs := by
  unfold State.memWrite
  split
  · next h => simp only [inRange_iff.1 h, true_and, Option.some.injEq]; exact eq_comm
  · next h => simp only [inRange_iff] at h; simp only [reduceCtorEq, h, false_and]

theorem State.memWrite_eq_none {s : State} {a : Nat} {bs : List Byte} :
    s.memWrite a bs = none ↔ 0 < bs.length ∧ memSize < a + bs.length := by
  unfold State.memWrite
  split
  · next h => have := inRange_iff.1 h; simp only [reduceCtorEq, false_iff]; omega
  · next h => simp only [inRange_iff] at h; simp only [true_iff]; omega

/-- A fetch answers exactly when `PC` is at most 0xFFE, and then the big-endian word there (20_memory.md R54). -/
theorem State.fetch_eq_some {s : State} {op : Word} :
    s.fetch = some op ↔
      s.pc.toNat ≤ 0xFFE ∧ op = wordOfBytes (s.readByte s.pc.toNat) (s.readByte (s.pc.toNat + 1)) := by
  unfold State.fetch
  split
  · next h =>
    have h' := inRange_iff.1 h
    simp only [memSize] at h'
    simp only [Option.some.injEq]
    constructor
    · intro e; exact ⟨by omega, e.symm⟩
    · intro e; exact e.2.symm
  · next h =>
    have h' : ¬ (2 = 0 ∨ s.pc.toNat + 2 ≤ memSize) := fun e => h (inRange_iff.2 e)
    simp only [memSize] at h'
    simp; intro; omega

theorem State.fetch_eq_none {s : State} : s.fetch = none ↔ s.pc.toNat > 0xFFE := by
  unfold State.fetch
  split
  · next h => have := inRange_iff.1 h; simp only [memSize] at this; simp; omega
  · next h =>
    have h' : ¬ (2 = 0 ∨ s.pc.toNat + 2 ≤ memSize) := fun e => h (inRange_iff.2 e)
    simp only [memSize] at h'
    simp; omega

/-! ### Ways to end -/

theorem complete_eq (s : State) (p : Word) : complete s p = .next (s.commit p) := rfl

theorem advance_eq (s : State) : advance s = .next (s.commit (s.pc + 2)) := rfl

theorem skipIf_eq (c : Bool) (s : State) : skipIf c s = .next (s.commit (if c then s.pc + 4 else s.pc + 2)) := rfl

theorem block_eq (s : State) : block s = .next { s with await := true, started := true } := rfl

/-- Fault entry changes nothing but `FAULT` (60_exceptions.md R214). -/
theorem raise_first (k : Fault) (op : Word) {s : State} (h : s.fault.kind = none) :
    raise k op s = .next { s with fault := { kind := some k, addr := s.pc, op := op } } := by
  simp [raise, s.latchFault_first k s.pc op h]

/-- The first fault wins (R221). -/
theorem raise_later (k : Fault) (op : Word) {s : State} (h : s.fault.kind ≠ none) : raise k op s = .next s := by
  simp [raise, s.latchFault_later k s.pc op h]

/-! ### The step, phase by phase -/

theorem halted_eq_false {s : State} : s.halted = false ↔ s.fault.kind = none := by
  simp [State.halted]

theorem step_halted {s : State} (h : s.halted = true) : step s = .next s := by simp [step, h]

theorem step_fetch_fault {s : State} (h : s.halted = false) (hf : s.fetch = none) :
    step s = raise .addressOutOfRange 0 s := by simp [step, h, hf]

theorem step_decode_fault {s : State} {op : Word} {r : DecodeReject} (h : s.halted = false) (hf : s.fetch = some op)
    (hd : decodeWord op = .error r) : step s = raise .decodeError op s := by simp [step, h, hf, hd]

theorem step_executes {s : State} {op : Word} {i : Instr} (h : s.halted = false) (hf : s.fetch = some op)
    (hd : decodeWord op = .ok i) : step s = exec i s := by simp [step, h, hf, hd]

end Sys2Proof.Machine
end

