-- ==== Sys2Proof/Laws/Operands.lean ====
section
/-! SUPPORT. What the operand forms of Machine/Operands.lean and the flags of Machine/Flags.lean are. -/

namespace Sys2Proof.Machine

/-! ### The register block -/

/-- Register `r` after loading bytes into the registers from `k` up. -/
theorem getElem_loadRegs (bs : List Byte) (v : Vector Byte 16) (k r : Nat) (hr : r < 16) :
    (loadRegs v k bs)[r] = if h : k ≤ r ∧ r < k + bs.length then bs[r - k]'(by omega) else v[r] := by
  induction bs generalizing v k with
  | nil => simp [loadRegs]
  | cons b bs ih =>
    rw [loadRegs, ih]
    by_cases h1 : k + 1 ≤ r ∧ r < k + 1 + bs.length
    · have h2 : k ≤ r ∧ r < k + (b :: bs).length := by simp; omega
      obtain ⟨j, hj⟩ : ∃ j, r - k = j + 1 := ⟨r - k - 1, by omega⟩
      have hj' : r - (k + 1) = j := by omega
      simp only [h1, h2, hj, hj', and_self, dite_true, List.getElem_cons_succ]
    · rw [dif_neg h1]
      by_cases h3 : r = k
      · subst h3
        simp
      · have h2 : ¬ (k ≤ r ∧ r < k + (b :: bs).length) := by simp; omega
        rw [dif_neg h2, Vector.getElem_setIfInBounds, if_neg (fun e => h3 e.symm)]

@[simp] theorem State.length_regsUpTo (s : State) (x : Reg) : (s.regsUpTo x).length = x.val + 1 := by
  simp [State.regsUpTo]

@[simp] theorem State.getElem_regsUpTo (s : State) (x : Reg) (k : Nat) (h : k < (s.regsUpTo x).length) :
    (s.regsUpTo x)[k] = s.v[k]'(by simp at h; omega) := by
  simp [State.regsUpTo]

/-! ### Keys -/

theorem keyIndex_eq_some {k : Nat} {j : Key} : keyIndex k = some j ↔ j.val = k := by
  unfold keyIndex
  split
  · simp [Fin.ext_iff, eq_comm]
  · simp; omega

theorem keyIndex_eq_none {k : Nat} : keyIndex k = none ↔ k > 15 := by
  simp [keyIndex]; omega

theorem firstTrue_eq_none {k : Nat} {bs : List Bool} : firstTrue k bs = none ↔ ∀ b ∈ bs, b = false := by
  induction bs generalizing k with
  | nil => simp [firstTrue]
  | cons b bs ih => cases b <;> simp [firstTrue, ih]

/-- The answer of `firstTrue` is the position of a `true` that has none before it. -/
theorem firstTrue_eq_some {k j : Nat} {bs : List Bool} :
    firstTrue k bs = some j ↔ ∃ n, ∃ h : n < bs.length, j = k + n ∧ bs[n] = true ∧ ∀ p, ∀ h' : p < n, bs[p] = false := by
  induction bs generalizing k with
  | nil => simp [firstTrue]
  | cons b bs ih =>
    cases b with
    | true =>
      simp only [firstTrue, if_true, Option.some.injEq]
      constructor
      · rintro rfl; exact ⟨0, by simp, rfl, rfl, fun p h' => absurd h' (by omega)⟩
      · rintro ⟨n, h, rfl, -, hmin⟩
        cases n with
        | zero => rfl
        | succ n => exact absurd (hmin 0 (by omega)) (by simp)
    | false =>
      simp only [firstTrue, Bool.false_eq_true, if_false, ih]
      constructor
      · rintro ⟨n, h, rfl, ht, hmin⟩
        refine ⟨n + 1, by simpa using h, by omega, by simpa using ht, fun p h' => ?_⟩
        cases p with
        | zero => rfl
        | succ p => simpa using hmin p (by omega)
      · rintro ⟨n, h, rfl, ht, hmin⟩
        cases n with
        | zero => simp at ht
        | succ n =>
          exact ⟨n, by simpa using h, by omega, by simpa using ht, fun p h' => by simpa using hmin (p + 1) (by omega)⟩

/-- No key is pressed exactly when `lowestKey` finds none. -/
theorem State.lowestKey_eq_none {s : State} : s.lowestKey = none ↔ ∀ k : Key, s.key[k] = false := by
  rw [State.lowestKey, firstTrue_eq_none]
  constructor
  · intro h k; exact h _ (by simp)
  · intro h b hb
    obtain ⟨n, hn, rfl⟩ := List.getElem_of_mem hb
    simpa using h ⟨n, by simpa using hn⟩

/-- `lowestKey` finds the pressed key that has no pressed key below it. -/
theorem State.lowestKey_eq_some {s : State} {j : Nat} :
    s.lowestKey = some j ↔ ∃ k : Key, j = k.val ∧ s.key[k] = true ∧ ∀ p : Key, p.val < k.val → s.key[p] = false := by
  rw [State.lowestKey, firstTrue_eq_some]
  constructor
  · rintro ⟨n, h, rfl, ht, hmin⟩
    exact ⟨⟨n, by simpa using h⟩, by simp, by simpa using ht, fun p hp => by simpa using hmin p.val hp⟩
  · rintro ⟨k, rfl, ht, hmin⟩
    exact ⟨k.val, by simp, by simp, by simpa using ht,
      fun p hp => by simpa using hmin ⟨p, by omega⟩ hp⟩

/-! ### Index arithmetic and digits, as numbers -/

theorem indexPlus_toNat (i : Word) (b : Byte) : (indexPlus i b).toNat = (i.toNat + b.toNat) % 4096 := by
  simp only [indexPlus, BitVec.toNat_ofNat]; omega

theorem glyphAddress_toNat (b : Byte) : (glyphAddress b).toNat = b.toNat * 5 := by
  have := b.isLt
  simp only [glyphAddress, BitVec.toNat_ofNat]; omega

theorem State.indexAfterBlock_toNat (s : State) (x : Reg) :
    (s.indexAfterBlock x).toNat =
      if s.config.indexAutoInc then (s.i.toNat + x.val + 1) % 4096 else s.i.toNat := by
  unfold State.indexAfterBlock
  split
  · simp only [BitVec.toNat_ofNat]; omega
  · rfl

@[simp] theorem length_bcdDigits (b : Byte) : (bcdDigits b).length = 3 := rfl

/-! ### Flags -/

@[simp] theorem flagByte_true : flagByte true = 1 := rfl
@[simp] theorem flagByte_false : flagByte false = 0 := rfl

theorem flagByte_eq_one {b : Bool} : flagByte b = 1 ↔ b = true := by cases b <;> decide

/-! ### Timers -/

theorem countDown_toNat (b : Byte) : (countDown b).toNat = b.toNat - 1 := by
  unfold countDown
  split
  · next h => simp [h]
  · next h =>
    have h1 : b.toNat ≠ 0 := fun e => h (BitVec.eq_of_toNat_eq (by simpa using e))
    have := b.isLt
    simp [BitVec.toNat_sub]; omega

end Sys2Proof.Machine
end

