-- ==== Sys2Proof/Laws/Display.lean ====
section
/-! SUPPORT. What the framebuffer's operations and one sprite bit do. -/

namespace Sys2Proof.Machine

/-- Inverting a pixel changes that pixel and no other. -/
theorem Framebuffer.pixel_flip (fb : Framebuffer) (r r' : Fin 32) (c c' : Fin 64) :
    (fb.flip r c).pixel r' c' = if r' = r ∧ c' = c then !fb.pixel r c else fb.pixel r' c' := by
  unfold Framebuffer.flip Framebuffer.pixel
  by_cases hr : r' = r
  · subst hr
    by_cases hc : c' = c
    · subst hc; simp
    · have : c.val ≠ c'.val := fun e => hc (Fin.ext e.symm)
      simp [hc, this]
  · have : r.val ≠ r'.val := fun e => hr (Fin.ext e.symm)
    simp [hr, this]

@[simp] theorem pixel_clearFramebuffer (r : Fin 32) (c : Fin 64) :
    Framebuffer.pixel clearFramebuffer r c = false := by
  simp [Framebuffer.pixel, clearFramebuffer]

/-- Framebuffers with the same pixels are equal. -/
theorem Framebuffer.ext_pixel {a b : Framebuffer} (h : ∀ r c, a.pixel r c = b.pixel r c) : a = b := by
  apply Vector.ext
  intro r hr
  apply Vector.ext
  intro c hc
  exact h ⟨r, hr⟩ ⟨c, hc⟩

/-- Where a sprite bit lands when pixels wrap. -/
theorem target_wrap (r c : Nat) : target true r c = some (Fin.ofNat 32 r, Fin.ofNat 64 c) := rfl

/-- Where a sprite bit lands when pixels are clipped. -/
theorem target_clip_eq_some {r c : Nat} {p : Fin 32 × Fin 64} :
    target false r c = some p ↔ p.1.val = r ∧ p.2.val = c := by
  unfold target
  simp only [Bool.false_eq_true, if_false]
  split
  · next h =>
    simp only [Option.some.injEq, Prod.ext_iff, Fin.ext_iff]
    constructor
    · rintro ⟨h1, h2⟩; exact ⟨h1.symm, h2.symm⟩
    · rintro ⟨h1, h2⟩; exact ⟨h1.symm, h2.symm⟩
  · next h =>
    simp only [reduceCtorEq, false_iff]
    rintro ⟨rfl, rfl⟩
    exact h ⟨p.1.isLt, p.2.isLt⟩

theorem target_clip_eq_none {r c : Nat} : target false r c = none ↔ r > 31 ∨ c > 63 := by
  unfold target
  simp only [Bool.false_eq_true, if_false]
  split
  · simp; omega
  · simp; omega

/-- A clipped bit changes nothing and collides with nothing (43_display.md R176). -/
theorem drawBit_clipped {wrap : Bool} {r c : Nat} (d : Drawing) (h : target wrap r c = none) :
    drawBit wrap r c d = d := by simp [drawBit, h]

/-- A bit that lands inverts its pixel and collides exactly when that pixel was 1 (R176, R177). -/
theorem drawBit_lands {wrap : Bool} {r c : Nat} (d : Drawing) {tr : Fin 32} {tc : Fin 64}
    (h : target wrap r c = some (tr, tc)) :
    drawBit wrap r c d = { fb := d.fb.flip tr tc, hit := d.hit || d.fb.pixel tr tc } := by simp [drawBit, h]

end Sys2Proof.Machine
end

