-- ==== Sys2Proof/Laws/Frames.lean ====
section
/-! SUPPORT. What each way of ending an instruction keeps, said once in the terms of Safety.lean: a meaning that is one of
these shapes gets its result and its frame from here. -/

namespace Sys2Proof.Machine

/-- Registers read the same in two states with the same register file. -/
theorem State.getV_congr {s t : State} (h : t.v = s.v) (r : Reg) : t.getV r = s.getV r := by simp [State.getV, h]

/-- A commit with nothing written but `PC`: the jumps and skips. -/
theorem complete_spec (s : State) (p : Word) :
    ∃ t, complete s p = .next t ∧ Executes s t p ∧ KeepsRegisters s t ∧ KeepsAllButRegisters s t :=
  ⟨_, rfl, ⟨rfl, rfl, rfl, rfl, rfl, rfl⟩, fun _ => rfl, rfl, ⟨rfl, rfl⟩, ⟨rfl, rfl⟩, fun _ => rfl, rfl, rfl⟩

/-- A conditional skip. -/
theorem skipIf_spec (c : Bool) (s : State) :
    ∃ t, skipIf c s = .next t ∧ Executes s t (if c then s.pc + 4 else s.pc + 2) ∧ KeepsRegisters s t ∧
      KeepsAllButRegisters s t :=
  complete_spec s _

/-- One register written and the default next `PC`: LDI, ADDI, LD, LDDT, and WKEY when it resolves. -/
theorem advance_setV_spec (s : State) (x : Reg) (b : Byte) :
    ∃ t, advance (s.setV x b) = .next t ∧ t.getV x = b ∧ Executes s t (s.pc + 2) ∧
      KeepsRegistersBut (· = x) s t ∧ KeepsAllButRegisters s t :=
  ⟨_, rfl, s.getV_setV_same x b, ⟨rfl, rfl, rfl, rfl, rfl, rfl⟩, fun _ h => s.getV_setV_other b h, rfl, ⟨rfl, rfl⟩,
    ⟨rfl, rfl⟩, fun _ => rfl, rfl, rfl⟩

/-- A result, then a flag that remains when the destination is `VF` (41_load_alu.md R121): OR, AND, XOR, ADD, SUB, SUBN, SHR,
SHL. -/
theorem advance_resultAndFlag_spec (s : State) (x : Reg) (b f : Byte) :
    ∃ t, advance (s.setResultAndFlag x b f) = .next t ∧ (x ≠ 15 → t.getV x = b) ∧ t.getV 15 = f ∧
      Executes s t (s.pc + 2) ∧ KeepsRegistersBut (fun r => r = x ∨ r = 15) s t ∧ KeepsAllButRegisters s t := by
  refine ⟨_, rfl, fun h => ?_, ?_, ⟨rfl, rfl, rfl, rfl, rfl, rfl⟩, fun r h => ?_, rfl, ⟨rfl, rfl⟩,
    ⟨rfl, rfl⟩, fun _ => rfl, rfl, rfl⟩
  · rw [State.getV_commit, State.getV_setResultAndFlag, if_neg (show x ≠ vf from h), if_pos rfl]
  · rw [State.getV_commit, State.getV_setResultAndFlag, if_pos (show (15 : Reg) = vf from rfl)]
  · rw [State.getV_commit, State.getV_setResultAndFlag, if_neg (fun e : r = vf => h (Or.inr e)),
      if_neg (fun e => h (Or.inl e))]

/-- Fault entry, in the terms of Safety.lean. -/
theorem raise_faulted (k : Fault) (op : Word) {s : State} (h : s.fault.kind = none) :
    raise k op s = .next (s.faulted k op) := raise_first k op h

end Sys2Proof.Machine
end

