-- ==== Sys2Proof/Laws/Exec.lean ====
section
/-! SUPPORT. What the execution of an instruction can do: the result of each meaning that checks something first, and one
case lemma for all of exec (`exec_cases`). Later proofs cite these and do not unfold the meanings. -/

namespace Sys2Proof.Machine

/-! ### RET and CALL -/

theorem exec_ret_ok {s : State} (h : s.sp.val ≠ 0) :
    exec .ret s = .next (({ s with sp := ⟨s.sp.val - 1, by omega⟩ } : State).commit
      (s.stack[s.sp.val - 1]'(by omega))) := by
  simp only [exec, execRet, h, dite_false, complete_eq]

theorem exec_ret_fault {s : State} (h : s.sp.val = 0) : exec .ret s = raise .stackUnderflow (encode .ret) s := by
  simp only [exec, execRet, h, dite_true]

theorem exec_call_ok {s : State} (nnn : Word) (h : s.sp.val < 16) :
    exec (.call nnn) s = .next (({ s with stack := s.stack.set s.sp.val (s.pc + 2), sp := ⟨s.sp.val + 1, by omega⟩ } :
      State).commit nnn) := by
  simp only [exec, execCall, h, dite_true, complete_eq]

theorem exec_call_fault {s : State} (nnn : Word) (h : s.sp.val = 16) :
    exec (.call nnn) s = raise .stackOverflow (encode (.call nnn)) s := by
  simp [exec, execCall, h]

/-! ### BCD, STM, LDM -/

theorem exec_bcd_ok {s : State} (x : Reg) (h : s.i.toNat + 2 ≤ 0xFFF) :
    exec (.bcd x) s = .next ((s.storeBytes s.i.toNat (bcdDigits (s.getV x))).commit (s.pc + 2)) := by
  have hw : s.memWrite s.i.toNat (bcdDigits (s.getV x)) = some (s.storeBytes s.i.toNat (bcdDigits (s.getV x))) :=
    State.memWrite_eq_some.2 ⟨Or.inr (by simp only [length_bcdDigits, memSize]; omega), rfl⟩
  simp only [exec, execBcd, hw, advance_eq, State.storeBytes_pc]

theorem exec_bcd_fault {s : State} (x : Reg) (h : s.i.toNat + 2 > 0xFFF) :
    exec (.bcd x) s = raise .addressOutOfRange (encode (.bcd x)) s := by
  have hw : s.memWrite s.i.toNat (bcdDigits (s.getV x)) = none :=
    State.memWrite_eq_none.2 ⟨by simp, by simp only [length_bcdDigits, memSize]; omega⟩
  simp only [exec, execBcd, hw]

theorem exec_stm_ok {s : State} (x : Reg) (h : s.i.toNat + x.val ≤ 0xFFF) :
    exec (.stm x) s =
      .next (((s.storeBytes s.i.toNat (s.regsUpTo x)).setI (s.indexAfterBlock x)).commit (s.pc + 2)) := by
  have hw : s.memWrite s.i.toNat (s.regsUpTo x) = some (s.storeBytes s.i.toNat (s.regsUpTo x)) :=
    State.memWrite_eq_some.2 ⟨Or.inr (by simp only [State.length_regsUpTo, memSize]; omega), rfl⟩
  simp only [exec, execStm, hw, advance_eq, State.setI_pc, State.storeBytes_pc]

theorem exec_stm_fault {s : State} (x : Reg) (h : s.i.toNat + x.val > 0xFFF) :
    exec (.stm x) s = raise .addressOutOfRange (encode (.stm x)) s := by
  have hw : s.memWrite s.i.toNat (s.regsUpTo x) = none :=
    State.memWrite_eq_none.2 ⟨by simp, by simp only [State.length_regsUpTo, memSize]; omega⟩
  simp only [exec, execStm, hw]

theorem exec_ldm_ok {s : State} (x : Reg) (h : s.i.toNat + x.val ≤ 0xFFF) :
    exec (.ldm x) s =
      .next ((({ s with v := loadRegs s.v 0 (s.readBytes s.i.toNat (x.val + 1)) } : State).setI
        (s.indexAfterBlock x)).commit (s.pc + 2)) := by
  have hr : s.memRead s.i.toNat (x.val + 1) = some (s.readBytes s.i.toNat (x.val + 1)) :=
    State.memRead_eq_some.2 ⟨Or.inr (by simp only [memSize]; omega), rfl⟩
  simp only [exec, execLdm, hr, advance_eq, State.setI_pc]

theorem exec_ldm_fault {s : State} (x : Reg) (h : s.i.toNat + x.val > 0xFFF) :
    exec (.ldm x) s = raise .addressOutOfRange (encode (.ldm x)) s := by
  have hr : s.memRead s.i.toNat (x.val + 1) = none :=
    State.memRead_eq_none.2 ⟨by omega, by simp only [memSize]; omega⟩
  simp only [exec, execLdm, hr]

/-! ### DRW -/

/-- The drawing DRW makes from a state. -/
def State.drawing (s : State) (x y : Reg) (n : Nat) : Drawing :=
  drawSprite s.config.spriteWrap (s.getV x) (s.getV y) (s.readBytes s.i.toNat n) s.fb

theorem exec_drw_ok {s : State} (x y : Reg) {n : Nat} (h : n = 0 ∨ s.i.toNat + n - 1 ≤ 0xFFF) :
    exec (.drw x y n) s =
      .next ((({ s with fb := (s.drawing x y n).fb } : State).setV vf (collisionFlag (s.drawing x y n).hit)).commit
        (s.pc + 2)) := by
  have hr : s.memRead s.i.toNat n = some (s.readBytes s.i.toNat n) :=
    State.memRead_eq_some.2 ⟨by simp only [memSize]; omega, rfl⟩
  simp only [exec, execDrw, hr, advance_eq, State.setV_pc]
  rfl

theorem exec_drw_fault {s : State} (x y : Reg) {n : Nat} (h1 : n ≥ 1) (h2 : s.i.toNat + n - 1 > 0xFFF) :
    exec (.drw x y n) s = raise .addressOutOfRange (encode (.drw x y n)) s := by
  have hr : s.memRead s.i.toNat n = none := State.memRead_eq_none.2 ⟨by omega, by simp only [memSize]; omega⟩
  simp only [exec, execDrw, hr]

/-! ### SKP, SKNP, WKEY -/

theorem exec_skp_ok {s : State} {x : Reg} {k : Key} (h : (s.getV x).toNat = k.val) :
    exec (.skp x) s = skipIf s.key[k] s := by
  simp only [exec, execSkp, keyIndex_eq_some.2 h.symm]

theorem exec_skp_fault {s : State} {x : Reg} (h : (s.getV x).toNat > 15) :
    exec (.skp x) s = raise .invalidKeyIndex (encode (.skp x)) s := by
  simp only [exec, execSkp, keyIndex_eq_none.2 h]

theorem exec_sknp_ok {s : State} {x : Reg} {k : Key} (h : (s.getV x).toNat = k.val) :
    exec (.sknp x) s = skipIf (!s.key[k]) s := by
  simp only [exec, execSknp, keyIndex_eq_some.2 h.symm]

theorem exec_sknp_fault {s : State} {x : Reg} (h : (s.getV x).toNat > 15) :
    exec (.sknp x) s = raise .invalidKeyIndex (encode (.sknp x)) s := by
  simp only [exec, execSknp, keyIndex_eq_none.2 h]

theorem exec_wkey_blocked {s : State} (x : Reg) (h : ∀ k : Key, s.key[k] = false) :
    exec (.wkey x) s = .next { s with await := true, started := true } := by
  simp only [exec, execWkey, State.lowestKey_eq_none.2 h, block_eq]

theorem exec_wkey_resolves {s : State} (x : Reg) {k : Key} (h : s.key[k] = true)
    (hmin : ∀ p : Key, p.val < k.val → s.key[p] = false) :
    exec (.wkey x) s = .next ((s.setV x (BitVec.ofNat 8 k.val)).commit (s.pc + 2)) := by
  simp only [exec, execWkey, State.lowestKey_eq_some.2 ⟨k, rfl, h, hmin⟩, advance_eq, State.setV_pc]

/-- A pressed key has a lowest pressed key at or below it. -/
theorem State.exists_lowest_key {s : State} (h : ∃ k : Key, s.key[k] = true) :
    ∃ k : Key, s.key[k] = true ∧ ∀ p : Key, p.val < k.val → s.key[p] = false := by
  cases e : s.lowestKey with
  | none =>
    obtain ⟨k, hk⟩ := h
    rw [State.lowestKey_eq_none.1 e k] at hk
    cases hk
  | some j =>
    obtain ⟨k, -, hk, hm⟩ := State.lowestKey_eq_some.1 e
    exact ⟨k, hk, hm⟩

/-! ### All of exec -/

/-- Three things an execution can do: enter the fault that `faultOf` names; block, on a WKEY with no key pressed; or commit a
state that has the same keys, fault record and parameters as before. -/
theorem exec_cases (i : Instr) (s : State) :
    (∃ k, faultOf i s = some k ∧ exec i s = raise k (encode i) s) ∨
    (faultOf i s = none ∧ (∃ x, i = .wkey x) ∧ (∀ k : Key, s.key[k] = false) ∧
      exec i s = .next { s with await := true, started := true }) ∨
    (faultOf i s = none ∧ ∃ (u : State) (p : Word), exec i s = .next (u.commit p) ∧ u.key = s.key ∧ u.fault = s.fault ∧
      u.config = s.config ∧ ((∃ x, i = .wkey x) → ∃ k : Key, s.key[k] = true)) := by
  cases i with
  | ret =>
    by_cases h : s.sp.val = 0
    · exact .inl ⟨_, by simp [faultOf, h], exec_ret_fault h⟩
    · exact .inr (.inr ⟨by simp only [faultOf, h, if_false], _, _, exec_ret_ok h, rfl, rfl, rfl, by simp⟩)
  | call nnn =>
    by_cases h : s.sp.val = 16
    · exact .inl ⟨_, by simp [faultOf, h], exec_call_fault nnn h⟩
    · exact .inr (.inr ⟨by simp only [faultOf, h, if_false], _, _, exec_call_ok nnn (by omega), rfl, rfl, rfl, by simp⟩)
  | bcd x =>
    by_cases h : s.i.toNat + 2 > 0xFFF
    · exact .inl ⟨_, by simp only [faultOf, h, if_true], exec_bcd_fault x h⟩
    · exact .inr (.inr ⟨by simp only [faultOf, h, if_false], _, _, exec_bcd_ok x (by omega), rfl, rfl, rfl, by simp⟩)
  | stm x =>
    by_cases h : s.i.toNat + x.val > 0xFFF
    · exact .inl ⟨_, by simp only [faultOf, h, if_true], exec_stm_fault x h⟩
    · exact .inr (.inr ⟨by simp only [faultOf, h, if_false], _, _, exec_stm_ok x (by omega), rfl, rfl, rfl, by simp⟩)
  | ldm x =>
    by_cases h : s.i.toNat + x.val > 0xFFF
    · exact .inl ⟨_, by simp only [faultOf, h, if_true], exec_ldm_fault x h⟩
    · exact .inr (.inr ⟨by simp only [faultOf, h, if_false], _, _, exec_ldm_ok x (by omega), rfl, rfl, rfl, by simp⟩)
  | drw x y n =>
    by_cases h : n ≥ 1 ∧ s.i.toNat + n - 1 > 0xFFF
    · exact .inl ⟨_, by rw [faultOf, if_pos h], exec_drw_fault x y h.1 h.2⟩
    · exact .inr (.inr ⟨by rw [faultOf, if_neg h], _, _, exec_drw_ok x y (by omega), rfl, rfl, rfl, by simp⟩)
  | skp x =>
    by_cases h : (s.getV x).toNat > 15
    · exact .inl ⟨_, by simp only [faultOf, h, if_true], exec_skp_fault h⟩
    · exact .inr (.inr ⟨by simp only [faultOf, h, if_false], s, _,
        exec_skp_ok (k := ⟨(s.getV x).toNat, by omega⟩) rfl, rfl, rfl, rfl, by simp⟩)
  | sknp x =>
    by_cases h : (s.getV x).toNat > 15
    · exact .inl ⟨_, by simp only [faultOf, h, if_true], exec_sknp_fault h⟩
    · exact .inr (.inr ⟨by simp only [faultOf, h, if_false], s, _,
        exec_sknp_ok (k := ⟨(s.getV x).toNat, by omega⟩) rfl, rfl, rfl, rfl, by simp⟩)
  | wkey x =>
    by_cases h : ∃ k : Key, s.key[k] = true
    · obtain ⟨k, hk, hm⟩ := State.exists_lowest_key h
      exact .inr (.inr ⟨rfl, _, _, exec_wkey_resolves x hk hm, rfl, rfl, rfl, fun _ => h⟩)
    · have h' : ∀ k : Key, s.key[k] = false := fun k => by
        cases e : s.key[k] with
        | false => rfl
        | true => exact absurd ⟨k, e⟩ h
      exact .inr (.inl ⟨rfl, ⟨x, rfl⟩, h', exec_wkey_blocked x h'⟩)
  | _ => exact .inr (.inr ⟨rfl, _, _, rfl, rfl, rfl, rfl, by simp⟩)

end Sys2Proof.Machine
end

