-- ==== Sys2Proof/Laws/PerInstr.lean ====
section
/-! SUPPORT. The family FixedBits: the word of every well-formed instruction has the fixed bits of its row of the opcode
map (30_encoding.md R73), whatever its operands. -/

namespace Sys2Proof

/-! ### The three masks of the map, as arithmetic -/

theorem and_F000 {v : Nat} (h : v < 65536) : v &&& 0xF000 = v / 4096 * 4096 := by
  apply Nat.eq_of_testBit_eq
  intro j
  rw [Nat.testBit_and, show v / 4096 * 4096 = v / 2 ^ 12 * 2 ^ 12 from rfl, Nat.testBit_mul_two_pow,
    Nat.testBit_div_two_pow]
  by_cases hj : j < 16
  · interval_cases j <;> simp (decide := true)
  · have hv : v.testBit j = false :=
      Nat.testBit_lt_two_pow (Nat.lt_of_lt_of_le h (Nat.pow_le_pow_right (n := 2) (by omega) (by omega : 16 ≤ j)))
    have hj' : j - 12 + 12 = j := by omega
    simp [hv, hj']

/-- A mask of the high nibble and the low `k` bits keeps just these. -/
theorem and_high_low {v k : Nat} (h : v < 65536) (hk : k ≤ 12) :
    v &&& (0xF000 ||| (2 ^ k - 1)) = v / 4096 * 4096 + v % 2 ^ k := by
  have hlt : v % 2 ^ k < 2 ^ 12 :=
    Nat.lt_of_lt_of_le (Nat.mod_lt _ (Nat.two_pow_pos k)) (Nat.pow_le_pow_right (n := 2) (by omega) hk)
  rw [Nat.and_or_distrib_left, and_F000 h, Nat.and_two_pow_sub_one_eq_mod,
    show v / 4096 * 4096 = 2 ^ 12 * (v / 4096) from Nat.mul_comm _ _, Nat.two_pow_add_eq_or_of_lt hlt]

/-! ### The formats of R71 -/

theorem encodeA_fixed (opc : Nat) (nnn : Word) (h : nnn.toNat < 4096) :
    encodeA opc nnn &&& 0xF000#16 = BitVec.ofNat 16 (opc * 4096) := by
  apply BitVec.eq_of_toNat_eq
  simp only [encodeA, BitVec.toNat_and, BitVec.toNat_ofNat, Nat.reducePow, Nat.reduceMod]
  rw [and_F000 (by omega)]
  omega

theorem encodeXK_fixed (opc : Nat) (x : Reg) (kk : Byte) :
    encodeXK opc x kk &&& 0xF000#16 = BitVec.ofNat 16 (opc * 4096) := by
  have := kk.isLt
  apply BitVec.eq_of_toNat_eq
  simp only [encodeXK, BitVec.toNat_and, BitVec.toNat_ofNat, Nat.reducePow, Nat.reduceMod]
  rw [and_F000 (by omega)]
  omega

theorem encodeXYN_fixed (opc : Nat) (x y : Reg) (n : Nat) (h : n < 16) :
    encodeXY opc x y n &&& 0xF000#16 = BitVec.ofNat 16 (opc * 4096) := by
  apply BitVec.eq_of_toNat_eq
  simp only [encodeXY, BitVec.toNat_and, BitVec.toNat_ofNat, Nat.reducePow, Nat.reduceMod]
  rw [and_F000 (by omega)]
  omega

theorem encodeXY_fixed (opc : Nat) (x y : Reg) (low : Nat) (h : low < 16) :
    encodeXY opc x y low &&& 0xF00F#16 = BitVec.ofNat 16 (opc * 4096 + low) := by
  apply BitVec.eq_of_toNat_eq
  simp only [encodeXY, BitVec.toNat_and, BitVec.toNat_ofNat, Nat.reducePow, Nat.reduceMod]
  rw [show (0xF00F : Nat) = 0xF000 ||| (2 ^ 4 - 1) from rfl, and_high_low (by omega) (by omega)]
  omega

theorem encodeX_fixed (opc : Nat) (x : Reg) (low : Nat) (h : low < 256) :
    encodeX opc x low &&& 0xF0FF#16 = BitVec.ofNat 16 (opc * 4096 + low) := by
  apply BitVec.eq_of_toNat_eq
  simp only [encodeX, BitVec.toNat_and, BitVec.toNat_ofNat, Nat.reducePow, Nat.reduceMod]
  rw [show (0xF0FF : Nat) = 0xF000 ||| (2 ^ 8 - 1) from rfl, and_high_low (by omega) (by omega)]
  omega

end Sys2Proof

namespace Sys2Proof.Laws.FixedBits

def Statement (i : Instr) : Prop := wellFormed i = true → encode i &&& (opcodeRow i).mask = (opcodeRow i).value

theorem cls : Statement (.cls) := fun _ => by decide
theorem ret : Statement (.ret) := fun _ => by decide
theorem jp (nnn : Word) : Statement (.jp nnn) := fun h => encodeA_fixed _ _ (by simpa [wellFormed, addressFits] using h)
theorem call (nnn : Word) : Statement (.call nnn) := fun h => encodeA_fixed _ _ (by simpa [wellFormed, addressFits] using h)
theorem sei (x : Reg) (kk : Byte) : Statement (.sei x kk) := fun _ => encodeXK_fixed _ _ _
theorem snei (x : Reg) (kk : Byte) : Statement (.snei x kk) := fun _ => encodeXK_fixed _ _ _
theorem se (x y : Reg) : Statement (.se x y) := fun _ => encodeXY_fixed _ _ _ _ (by decide)
theorem ldi (x : Reg) (kk : Byte) : Statement (.ldi x kk) := fun _ => encodeXK_fixed _ _ _
theorem addi (x : Reg) (kk : Byte) : Statement (.addi x kk) := fun _ => encodeXK_fixed _ _ _
theorem ld (x y : Reg) : Statement (.ld x y) := fun _ => encodeXY_fixed _ _ _ _ (by decide)
theorem or (x y : Reg) : Statement (.or x y) := fun _ => encodeXY_fixed _ _ _ _ (by decide)
theorem and (x y : Reg) : Statement (.and x y) := fun _ => encodeXY_fixed _ _ _ _ (by decide)
theorem xor (x y : Reg) : Statement (.xor x y) := fun _ => encodeXY_fixed _ _ _ _ (by decide)
theorem add (x y : Reg) : Statement (.add x y) := fun _ => encodeXY_fixed _ _ _ _ (by decide)
theorem sub (x y : Reg) : Statement (.sub x y) := fun _ => encodeXY_fixed _ _ _ _ (by decide)
theorem shr (x y : Reg) : Statement (.shr x y) := fun _ => encodeXY_fixed _ _ _ _ (by decide)
theorem subn (x y : Reg) : Statement (.subn x y) := fun _ => encodeXY_fixed _ _ _ _ (by decide)
theorem shl (x y : Reg) : Statement (.shl x y) := fun _ => encodeXY_fixed _ _ _ _ (by decide)
theorem sne (x y : Reg) : Statement (.sne x y) := fun _ => encodeXY_fixed _ _ _ _ (by decide)
theorem ldix (nnn : Word) : Statement (.ldix nnn) := fun h => encodeA_fixed _ _ (by simpa [wellFormed, addressFits] using h)
theorem jpv0 (nnn : Word) : Statement (.jpv0 nnn) := fun h => encodeA_fixed _ _ (by simpa [wellFormed, addressFits] using h)
theorem rnd (x : Reg) (kk : Byte) : Statement (.rnd x kk) := fun _ => encodeXK_fixed _ _ _
theorem drw (x y : Reg) (n : Nat) : Statement (.drw x y n) := fun h => encodeXYN_fixed _ _ _ _ (by simpa [wellFormed, heightFits] using h)
theorem skp (x : Reg) : Statement (.skp x) := fun _ => encodeX_fixed _ _ _ (by decide)
theorem sknp (x : Reg) : Statement (.sknp x) := fun _ => encodeX_fixed _ _ _ (by decide)
theorem lddt (x : Reg) : Statement (.lddt x) := fun _ => encodeX_fixed _ _ _ (by decide)
theorem wkey (x : Reg) : Statement (.wkey x) := fun _ => encodeX_fixed _ _ _ (by decide)
theorem stdt (x : Reg) : Statement (.stdt x) := fun _ => encodeX_fixed _ _ _ (by decide)
theorem stst (x : Reg) : Statement (.stst x) := fun _ => encodeX_fixed _ _ _ (by decide)
theorem addix (x : Reg) : Statement (.addix x) := fun _ => encodeX_fixed _ _ _ (by decide)
theorem font (x : Reg) : Statement (.font x) := fun _ => encodeX_fixed _ _ _ (by decide)
theorem bcd (x : Reg) : Statement (.bcd x) := fun _ => encodeX_fixed _ _ _ (by decide)
theorem stm (x : Reg) : Statement (.stm x) := fun _ => encodeX_fixed _ _ _ (by decide)
theorem ldm (x : Reg) : Statement (.ldm x) := fun _ => encodeX_fixed _ _ _ (by decide)

end Sys2Proof.Laws.FixedBits
end

