-- ==== Sys2Proof/Tests/Slice0.lean ====
section
/-! SUPPORT. The model's own tests. Expected results are the vectors of spec/95_test_vectors.md (named EV-, CV-, AV-, MV-, DV-,
KV-, TV-, FV-) or worked by hand from the rule named; none is the model's own answer. Then, for every statement with
hypotheses, a concrete state and operands that meet them. -/

open Sys2Proof Sys2Proof.Machine

namespace Sys2Proof.Tests

/-! ### Helpers -/

/-- The reset state with some registers set. -/
def regs (l : List (Reg × Byte)) : State := l.foldl (fun s p => s.setV p.1 p.2) State.reset

/-- `s` with the word `w` at its `PC`, stepped once, seen through `f`. -/
def stepped {α : Type} (w : Nat) (s : State) (f : State → α) : Option α :=
  match step (s.withFetchWord 16 w) with
  | .next t    => some (f t)
  | .fault _   => none
  | .refused _ => none

/-- One operation's answer, and its state seen through `f`. -/
def answered {α : Type} (o : Operation) (s : State) (f : State → α) : Option (Response × α) :=
  match operate o s with
  | .next (t, r) => some (r, f t)
  | .fault _     => none
  | .refused _   => none

/-- The parameters with one toggle on. -/
def shifting : Config := { defaultConfig with shiftInPlace := true }
def indexing : Config := { defaultConfig with indexAutoInc := true }
def wrapping : Config := { defaultConfig with spriteWrap := true }

/-- `s` with keys pressed. -/
def pressed (ks : List Key) (s : State) : State :=
  ks.foldl (fun (s : State) (k : Key) => { s with key := s.key.set k true }) s

/-- `s` with pixels lit. -/
def lit (ps : List (Fin 32 × Fin 64)) (s : State) : State := ps.foldl (fun s p => { s with fb := s.fb.flip p.1 p.2 }) s

/-- A machine halted by an earlier fault. -/
def haltedState : State := State.reset.faulted .decodeError 0x0123

/-- The columns lit in row `r`. -/
def litColumns (t : State) (r : Fin 32) : List Nat :=
  ((List.finRange 64).filter (fun c => t.fb.pixel r c)).map (fun c => c.val)

/-! ### WellFormed refuses ill-formed terms -/

theorem test_illformed_jp : wellFormed (.jp 0x1000) = false := by decide
theorem test_illformed_call : wellFormed (.call 0xFFFF) = false := by decide
theorem test_illformed_ldix : wellFormed (.ldix 0x1000) = false := by decide
theorem test_illformed_jpv0 : wellFormed (.jpv0 0x8000) = false := by decide
theorem test_illformed_drw : wellFormed (.drw 0 0 16) = false := by decide
theorem test_wellformed_bounds :
    wellFormed (.jp 0xFFF) = true ∧ wellFormed (.drw 15 15 15) = true ∧ wellFormed (.drw 0 0 0) = true := by decide

/-! ### Decoding words written out from the patterns of 30_encoding.md R73 -/

theorem test_decode_cls  : decodeWord 0b0000000011100000 = .ok .cls := by decide
theorem test_decode_ret  : decodeWord 0b0000000011101110 = .ok .ret := by decide
theorem test_decode_jp   : decodeWord 0b0001101010111100 = .ok (.jp 0xABC) := by decide
theorem test_decode_call : decodeWord 0b0010111111111111 = .ok (.call 0xFFF) := by decide
theorem test_decode_sei  : decodeWord 0b0011101001111111 = .ok (.sei 10 0x7F) := by decide
theorem test_decode_snei : decodeWord 0b0100111100000000 = .ok (.snei 15 0x00) := by decide
theorem test_decode_se   : decodeWord 0b0101101010110000 = .ok (.se 10 11) := by decide
theorem test_decode_ldi  : decodeWord 0b0110110000010010 = .ok (.ldi 12 0x12) := by decide
theorem test_decode_addi : decodeWord 0b0111000011111111 = .ok (.addi 0 0xFF) := by decide
theorem test_decode_ld   : decodeWord 0b1000000100100000 = .ok (.ld 1 2) := by decide
theorem test_decode_or   : decodeWord 0b1000000100100001 = .ok (.or 1 2) := by decide
theorem test_decode_and  : decodeWord 0b1000000100100010 = .ok (.and 1 2) := by decide
theorem test_decode_xor  : decodeWord 0b1000000100100011 = .ok (.xor 1 2) := by decide
theorem test_decode_add  : decodeWord 0b1000000100100100 = .ok (.add 1 2) := by decide
theorem test_decode_sub  : decodeWord 0b1000000100100101 = .ok (.sub 1 2) := by decide
theorem test_decode_shr  : decodeWord 0b1000000100100110 = .ok (.shr 1 2) := by decide
theorem test_decode_subn : decodeWord 0b1000000100100111 = .ok (.subn 1 2) := by decide
theorem test_decode_shl  : decodeWord 0b1000000100101110 = .ok (.shl 1 2) := by decide
theorem test_decode_sne  : decodeWord 0b1001110011010000 = .ok (.sne 12 13) := by decide
theorem test_decode_ldix : decodeWord 0b1010000100100011 = .ok (.ldix 0x123) := by decide
theorem test_decode_jpv0 : decodeWord 0b1011001100000000 = .ok (.jpv0 0x300) := by decide
theorem test_decode_rnd  : decodeWord 0b1100000100001111 = .ok (.rnd 1 0x0F) := by decide
theorem test_decode_drw  : decodeWord 0b1101000100101010 = .ok (.drw 1 2 10) := by decide
theorem test_decode_skp  : decodeWord 0b1110010010011110 = .ok (.skp 4) := by decide
theorem test_decode_sknp : decodeWord 0b1110010010100001 = .ok (.sknp 4) := by decide
theorem test_decode_lddt : decodeWord 0b1111001100000111 = .ok (.lddt 3) := by decide
theorem test_decode_wkey : decodeWord 0b1111001100001010 = .ok (.wkey 3) := by decide
theorem test_decode_stdt : decodeWord 0b1111001100010101 = .ok (.stdt 3) := by decide
theorem test_decode_stst : decodeWord 0b1111001100011000 = .ok (.stst 3) := by decide
theorem test_decode_addix : decodeWord 0b1111001100011110 = .ok (.addix 3) := by decide
theorem test_decode_font : decodeWord 0b1111001100101001 = .ok (.font 3) := by decide
theorem test_decode_bcd  : decodeWord 0b1111001100110011 = .ok (.bcd 3) := by decide
theorem test_decode_stm  : decodeWord 0b1111001101010101 = .ok (.stm 3) := by decide
theorem test_decode_ldm  : decodeWord 0b1111001101100101 = .ok (.ldm 3) := by decide

/-- EV-18 to EV-22. -/
theorem test_illegal_words :
    ([0x0000, 0x00E1, 0x00FD, 0x00C1, 0x0123].all fun w => decide (decodeWord w = .error .illegal0)) = true ∧
    ([0x5001, 0x5AB1].all fun w => decide (decodeWord w = .error .illegal5)) = true ∧
    ([0x8008, 0x8129, 0x812A, 0x812B, 0x812C, 0x812D, 0x812F].all fun w =>
      decide (decodeWord w = .error .illegal8)) = true ∧
    ([0x9001, 0x9CDF].all fun w => decide (decodeWord w = .error .illegal9)) = true ∧
    ([0xE000, 0xE09F, 0xE19D, 0xE4A2].all fun w => decide (decodeWord w = .error .illegalE)) = true ∧
    ([0xF000, 0xF002, 0xF075, 0xF085, 0xF090, 0xFFFF, 0xF31F].all fun w =>
      decide (decodeWord w = .error .illegalF)) = true := by decide

/-- Bytes: the high byte first (20_memory.md R54); one byte is no instruction. -/
theorem test_decode_bytes :
    decode [0x12, 0x34, 0x56] = .ok (.jp 0x234, [0x56]) ∧ decode [0x00] = .error .truncated ∧
    decode [] = .error .truncated ∧ decodeTableWord 16 0x8AB4 = some (.add 10 11) ∧ decodeTableWord 16 0 = none := by
  decide

/-! ### Control transfer (40_step_and_control.md) -/

/-- CV-3. -/
theorem test_ret : stepped 0x00EE
    { State.reset with pc := 0x300, sp := 16, stack := State.reset.stack.set 15 0x0ABC }
    (fun t => (t.pc, t.sp, t.stack[15])) = some (0x0ABC, 15, 0x0ABC) := by decide

/-- CV-2. -/
theorem test_ret_underflow : stepped 0x00EE { State.reset with pc := 0x20A } (fun t => (t.fault, t.pc, t.sp)) =
    some (⟨some .stackUnderflow, 0x020A, 0x00EE⟩, 0x20A, 0) := by decide

/-- CV-5. -/
theorem test_jp : stepped 0x1FFF State.reset (fun t => (t.pc, t.fault.kind)) = some (0x0FFF, none) := by decide

/-- CV-7. -/
theorem test_call : stepped 0x2208 { State.reset with pc := 0x202, sp := 15 } (fun t => (t.stack[15], t.sp, t.pc)) =
    some (0x0204, 16, 0x0208) := by decide

/-- CV-8. -/
theorem test_call_overflow : stepped 0x2208 { State.reset with pc := 0x202, sp := 16 }
    (fun t => (t.fault, t.pc, t.sp)) = some (⟨some .stackOverflow, 0x0202, 0x2208⟩, 0x202, 16) := by decide

/-- CV-10, CV-11. -/
theorem test_sei : stepped 0x332A (regs [(3, 0x2A)]) State.pc = some 0x204 ∧
    stepped 0x3300 (regs [(3, 0x2A)]) State.pc = some 0x202 := by decide

/-- CV-12, CV-13. -/
theorem test_snei : stepped 0x4300 (regs [(3, 0x2A)]) State.pc = some 0x204 ∧
    stepped 0x432A (regs [(3, 0x2A)]) State.pc = some 0x202 := by decide

/-- CV-14, CV-15. -/
theorem test_se : stepped 0x5120 (regs [(1, 7), (2, 7)]) State.pc = some 0x204 ∧
    stepped 0x5120 (regs [(1, 7), (2, 8)]) State.pc = some 0x202 := by decide

/-- CV-17, CV-18. -/
theorem test_sne : stepped 0x9120 (regs [(1, 7), (2, 8)]) State.pc = some 0x204 ∧
    stepped 0x9120 (regs [(1, 7), (2, 7)]) State.pc = some 0x202 := by decide

/-- CV-20. -/
theorem test_jpv0 : stepped 0xBFFF (regs [(0, 0xFF)]) State.pc = some 0x10FE := by decide

/-- CV-22: the skipped word is not fetched. -/
theorem test_skip_to_the_top : stepped 0x3F01 { regs [(15, 1)] with pc := 0xFFC } (fun t => (t.pc, t.fault.kind)) =
    some (0x1000, none) := by decide

/-- CV-23: an instruction at an odd address. -/
theorem test_odd_address : stepped 0x6A2F { State.reset with pc := 0x201 } (fun t => (t.getV 10, t.pc)) =
    some (0x2F, 0x203) := by decide

/-! ### Loads and ALU (41_load_alu.md) -/

/-- AV-1. -/
theorem test_ldi : stepped 0x6A2F State.reset (fun t => (t.getV 10, t.pc)) = some (0x2F, 0x202) := by decide

/-- AV-3, AV-5. -/
theorem test_addi : stepped 0x7005 (regs [(0, 0xFE)]) (fun t => (t.getV 0, t.getV 15)) = some (0x03, 0x00) ∧
    stepped 0x7F02 (regs [(15, 0xFF)]) (fun t => t.getV 15) = some 0x01 := by decide

/-- AV-6. -/
theorem test_ld : stepped 0x8120 (regs [(2, 9)]) (fun t => (t.getV 1, t.getV 2)) = some (9, 9) := by decide

/-- AV-9, AV-10. -/
theorem test_or : stepped 0x8F21 (regs [(15, 1), (2, 0x80)]) (fun t => (t.getV 15, t.getV 2)) = some (0, 0x80) ∧
    stepped 0x81F1 (regs [(1, 0x10), (15, 1)]) (fun t => (t.getV 1, t.getV 15)) = some (0x11, 0) := by decide

/-- AV-11. -/
theorem test_and : stepped 0x8122 (regs [(1, 0xF3), (2, 0x3F), (15, 1)]) (fun t => (t.getV 1, t.getV 15)) =
    some (0x33, 0) := by decide

/-- AV-13. -/
theorem test_xor : stepped 0x8123 (regs [(1, 0xFF), (2, 0x0F), (15, 1)]) (fun t => (t.getV 1, t.getV 15)) =
    some (0xF0, 0) := by decide

/-- AV-16, AV-21. -/
theorem test_add : stepped 0x8124 (regs [(1, 0xFE), (2, 1), (15, 1)]) (fun t => (t.getV 1, t.getV 15)) =
      some (0xFF, 0) ∧
    stepped 0x81F4 (regs [(1, 0xFF), (15, 1)]) (fun t => (t.getV 1, t.getV 15)) = some (0x00, 1) := by decide

/-- AV-19. -/
theorem test_add_into_vf : stepped 0x8F24 (regs [(15, 0xFF), (2, 2)]) (fun t => t.getV 15) = some 1 := by decide

/-- AV-23, AV-25. -/
theorem test_sub : stepped 0x8125 (regs [(1, 0x10), (2, 0x20), (15, 1)]) (fun t => (t.getV 1, t.getV 15)) =
      some (0xF0, 0) ∧
    stepped 0x8125 (regs [(1, 0x33), (2, 0x33)]) (fun t => (t.getV 1, t.getV 15)) = some (0, 1) := by decide

/-- AV-28. -/
theorem test_sub_into_vf : stepped 0x8F25 (regs [(15, 5), (2, 3)]) (fun t => t.getV 15) = some 1 := by decide

/-- AV-31, AV-32. -/
theorem test_subn : stepped 0x8127 (regs [(1, 0x10), (2, 0x20)]) (fun t => (t.getV 1, t.getV 2, t.getV 15)) =
      some (0x10, 0x20, 1) ∧
    stepped 0x8127 (regs [(1, 0x20), (2, 0x10), (15, 1)]) (fun t => (t.getV 1, t.getV 15)) = some (0xF0, 0) := by
  decide

/-- AV-36. -/
theorem test_shr : stepped 0x8126 (regs [(1, 0xAA), (2, 5)]) (fun t => (t.getV 1, t.getV 2, t.getV 15)) =
    some (2, 5, 1) := by decide

/-- AV-41. -/
theorem test_shr_in_place : stepped 0x8126 { regs [(1, 0xAB), (2, 4)] with config := shifting }
    (fun t => (t.getV 1, t.getV 2, t.getV 15)) = some (0x55, 4, 1) := by decide

/-- AV-44. -/
theorem test_shl : stepped 0x812E (regs [(1, 0xFF), (2, 0x41), (15, 1)]) (fun t => (t.getV 1, t.getV 15)) =
    some (0x82, 0) := by decide

/-- AV-47. -/
theorem test_shl_in_place : stepped 0x812E { regs [(1, 0x81)] with config := shifting }
    (fun t => (t.getV 1, t.getV 15)) = some (2, 1) := by decide

/-- AV-49 in shape: a mask of 0 leaves 0 whatever is drawn (R141). -/
theorem test_rnd_mask_zero : stepped 0xC100 (regs [(1, 0x55)]) (fun t => (t.draws, t.pc)) = some (1, 0x202) ∧
    ∃ t, exec (.rnd 1 0) (regs [(1, 0x55)]) = .next t ∧ t.getV 1 = 0 :=
  ⟨by decide, _, rfl, (State.getV_setV_same _ _ _).trans BitVec.and_zero⟩

/-! ### Index register and memory (42_index_memory.md) -/

/-- MV-2. -/
theorem test_ldix : stepped 0xAFFF State.reset State.i = some 0xFFF := by decide

/-- MV-3. -/
theorem test_addix : stepped 0xF21E { regs [(2, 0x20), (15, 1)] with i := 0xFF0 } (fun t => (t.i, t.getV 15)) =
    some (0x0010, 1) := by decide

/-- MV-6, MV-8. -/
theorem test_font : stepped 0xF329 (regs [(3, 0x0A)]) State.i = some 0x0032 ∧
    stepped 0xF329 (regs [(3, 0xFF)]) State.i = some 0x04FB := by decide

/-- MV-9. -/
theorem test_bcd : stepped 0xF333 { regs [(3, 254)] with i := 0x300 } (fun t => (t.readBytes 0x2FF 5, t.i)) =
    some ([0, 2, 5, 4, 0], 0x300) := by decide

/-- MV-11a. -/
theorem test_bcd_fault : stepped 0xF333 ({ regs [(3, 7)] with i := 0xFFE }.storeBytes 0xFFE [0xAA, 0xBB])
    (fun t => (t.fault, t.pc, t.readBytes 0xFFE 2)) =
    some (⟨some .addressOutOfRange, 0x200, 0xF333⟩, 0x200, [0xAA, 0xBB]) := by decide

/-- MV-12, MV-15. -/
theorem test_stm : stepped 0xF255 { regs [(0, 1), (1, 2), (2, 3), (3, 4)] with i := 0x400 }
      (fun t => (t.readBytes 0x400 4, t.i)) = some ([1, 2, 3, 0], 0x400) ∧
    stepped 0xF055 { regs [(0, 0x5A)] with i := 0xFFF, config := indexing } (fun t => (t.readByte 0xFFF, t.i)) =
      some (0x5A, 0) := by decide

/-- MV-16. -/
theorem test_stm_fault : stepped 0xF155 ({ regs [(0, 0x5A), (1, 0x5B)] with i := 0xFFF }.storeBytes 0xFFF [0x11])
    (fun t => (t.fault, t.readByte 0xFFF)) = some (⟨some .addressOutOfRange, 0x200, 0xF155⟩, 0x11) := by decide

/-- MV-20. -/
theorem test_ldm : stepped 0xF265
    ({ regs [(3, 0x77)] with i := 0x300, config := indexing }.storeBytes 0x300 [2, 5, 4, 9])
    (fun t => (t.v.toList.take 4, t.i)) = some ([2, 5, 4, 0x77], 0x303) := by decide

/-- MV-21: the default font read back. -/
theorem test_ldm_font : stepped 0xFF65 State.reset (fun t => t.v.toList) =
    some [0xF0, 0x90, 0x90, 0x90, 0xF0, 0x20, 0x60, 0x20, 0x20, 0x70, 0xF0, 0x10, 0xF0, 0x80, 0xF0, 0xF0] := by decide

/-! ### Framebuffer (43_display.md) -/

/-- DV-1. -/
theorem test_cls : stepped 0x00E0 (lit [(0, 0), (31, 63)] (regs [(15, 1)]))
    (fun t => (t.fb.pixel 0 0, t.fb.pixel 31 63, t.getV 15)) = some (false, false, 1) := by decide

/-- DV-2, DV-3. -/
theorem test_drw_edge : stepped 0xD011 ({ regs [(0, 60), (15, 1)] with i := 0x300 }.storeBytes 0x300 [0xFF])
      (fun t => (litColumns t 0, t.getV 15)) = some ([60, 61, 62, 63], 0) ∧
    stepped 0xD011 ({ regs [(0, 60)] with i := 0x300, config := wrapping }.storeBytes 0x300 [0xFF])
      (fun t => (litColumns t 0, t.getV 15)) = some ([0, 1, 2, 3, 60, 61, 62, 63], 0) := by decide

/-- DV-7. -/
theorem test_drw_collision : stepped 0xD011
    (lit [(3, 3), (3, 10)] ({ regs [(0, 2), (1, 3)] with i := 0x300 }.storeBytes 0x300 [0xC0]))
    (fun t => (litColumns t 3, t.getV 15)) = some ([2, 10], 1) := by decide

/-- DV-11: height 0. DV-14: past the end of memory. -/
theorem test_drw_bounds : stepped 0xD010 (lit [(5, 5)] { regs [(0, 5), (1, 5), (15, 1)] with i := 0xFFF })
      (fun t => (litColumns t 5, t.getV 15, t.fault.kind)) = some ([5], 0, none) ∧
    stepped 0xD01F { regs [(1, 31)] with i := 0xFF2 } State.fault =
      some ⟨some .addressOutOfRange, 0x200, 0xD01F⟩ := by decide

/-! ### Keys and timers (44_keys_timers.md, 60_exceptions.md) -/

/-- KV-1, KV-2. -/
theorem test_skp : stepped 0xE49E (pressed [7] (regs [(4, 7)])) State.pc = some 0x204 ∧
    stepped 0xE49E (regs [(4, 7)]) State.pc = some 0x202 := by decide

/-- KV-3. -/
theorem test_skp_fault : stepped 0xE49E (pressed [0] (regs [(4, 16)])) (fun t => (t.fault, t.pc)) =
    some (⟨some .invalidKeyIndex, 0x200, 0xE49E⟩, 0x200) := by decide

/-- KV-4, KV-5. -/
theorem test_sknp : stepped 0xE4A1 (regs [(4, 7)]) State.pc = some 0x204 ∧
    stepped 0xE4A1 (pressed [7] (regs [(4, 7)])) State.pc = some 0x202 := by decide

/-- KV-6. -/
theorem test_sknp_fault : stepped 0xE4A1 (regs [(4, 0xFF)]) State.fault =
    some ⟨some .invalidKeyIndex, 0x200, 0xE4A1⟩ := by decide

/-- KV-8. -/
theorem test_wkey_blocks : answered .step ((regs [(5, 0xEE)]).withFetchWord 16 0xF50A)
    (fun t => (t.pc, t.await, t.getV 5)) = some (.blocked, 0x200, true, 0xEE) := by decide

/-- KV-10. -/
theorem test_wkey_resolves : answered .step ({ pressed [9, 3] State.reset with await := true }.withFetchWord 16 0xF50A)
    (fun t => (t.pc, t.await, t.getV 5)) = some (.executed, 0x202, false, 3) := by decide

/-- KV-13. -/
theorem test_lddt : stepped 0xF307 { State.reset with dt := 0x1E } (fun t => (t.getV 3, t.dt)) = some (0x1E, 0x1E) := by
  decide

/-- KV-14. -/
theorem test_stdt : stepped 0xF315 { regs [(3, 60)] with dt := 5 } (fun t => (t.dt, t.st)) = some (0x3C, 0) := by decide

/-- KV-15, its first row. -/
theorem test_stst : stepped 0xF318 (regs [(3, 2)]) (fun t => (t.st, t.dt)) = some (2, 0) := by decide

/-- TV-1, TV-2, TV-4, TV-5. -/
theorem test_tick : answered .tick State.reset (fun t => (t.dt, t.st)) = some (.tone false, 0, 0) ∧
    answered .tick { State.reset with dt := 1, st := 1 } (fun t => (t.dt, t.st)) = some (.tone true, 0, 0) ∧
    answered .tick { State.reset with dt := 255 } (fun t => (t.dt, t.st)) = some (.tone false, 254, 0) ∧
    answered .tick { State.reset with st := 255 } (fun t => (t.dt, t.st)) = some (.tone false, 0, 254) := by decide

/-! ### Faults and the environment's operations (60_exceptions.md, 70_reset_and_hazards.md) -/

/-- FV-1. -/
theorem test_first_step_from_reset : answered .step State.reset (fun t => (t.fault, t.pc)) =
    some (.fault .decodeError, ⟨some .decodeError, 0x200, 0x0000⟩, 0x200) := by decide

/-- FV-2, FV-4, FV-5 on a halted machine. -/
theorem test_halted : answered .step haltedState (fun t => decide (t = haltedState)) = some (.halted, true) ∧
    answered (.keySet 16) haltedState State.fault = some (.fault .invalidKeyIndex, haltedState.fault) ∧
    answered (.keySet 3) haltedState (fun t => t.key[3]) = some (.done, true) := by decide +kernel

/-- FV-7. -/
theorem test_key_set_fault : answered (.keySet 16) State.reset State.fault =
    some (.fault .invalidKeyIndex, ⟨some .invalidKeyIndex, 0x200, 0⟩) := by decide

/-- 60_exceptions.md R236, R237. -/
theorem test_key_operations : answered (.keyClear 9) (pressed [9, 3] State.reset) (fun t => (t.key[9], t.key[3])) =
      some (.done, false, true) ∧
    answered (.keyRead 15) (pressed [15] State.reset) (fun _ => ()) = some (.bit true, ()) ∧
    answered (.keyRead 16) State.reset (fun t => t.fault.kind) =
      some (.fault .invalidKeyIndex, some .invalidKeyIndex) := by decide

/-- FV-8, its load. FV-9. -/
theorem test_load : answered (.load [0x60, 0x01]) State.reset (fun t => (t.readBytes 0x1FF 4, t.pc)) =
      some (.done, [0, 0x60, 0x01, 0], 0x200) ∧
    answered (.load []) State.reset State.mem = some (.done, []) := by decide

/-- A `LOAD` after the first `STEP` has no meaning (20_memory.md R68). -/
theorem test_late_load : operate (.load [0]) { State.reset with started := true } = .refused .lateLoad := by rfl

/-- CV-5, CV-20, their second step: a fetch fault has `op = 0`. -/
theorem test_fetch_fault : answered .step { State.reset with pc := 0x0FFF } State.fault =
      some (.fault .addressOutOfRange, ⟨some .addressOutOfRange, 0x0FFF, 0⟩) ∧
    answered .step { State.reset with pc := 0x10FE } State.fault =
      some (.fault .addressOutOfRange, ⟨some .addressOutOfRange, 0x10FE, 0⟩) := by decide

/-- The codes of the table of 60_exceptions.md R211. -/
theorem test_fault_codes :
    [none, some .decodeError, some .stackUnderflow, some .stackOverflow, some .programTooLarge, some .invalidKeyIndex,
      some .addressOutOfRange].map Fault.code = [0, 1, 2, 3, 4, 5, 6] := by decide

/-! ### Witnesses: the hypotheses of the statements can be met -/

/-- Two instructions the encoding has room for, at the ends of their ranges. -/
theorem witness_DecodeOfEncodeIsTheInstruction :
    wellFormed (.jpv0 0xFFF) = true ∧ wellFormed (.drw 15 15 15) = true := by decide

theorem witness_EncodeOfDecodeIsTheWord : decodeWord 0xFFFF = .error .illegalF ∧ decodeWord 0xFF65 = .ok (.ldm 15) := by
  decide

theorem witness_DecodeFollowsTheOpcodeMap : (⟨0xF0FF, 0xF065⟩ : OpcodeRow) ∈ opcodeMap := by decide

/-- An instruction at 0xFFE, the last address that can be fetched from. -/
def lastWord : State := { State.reset with pc := 0xFFE }.withFetchWord 16 0x2ABC

theorem witness_StepExecutesTheDecodedInstruction : lastWord.fault.kind = none ∧ lastWord.pc.toNat ≤ 0xFFE ∧
    decode (lastWord.readBytes lastWord.pc.toNat 2) = .ok (.call 0xABC, []) := by decide

theorem witness_PlacedWordRunsNext : decodeTableWord 16 0xD01F = some (.drw 0 1 15) := by decide

theorem witness_HaltedStepDoesNothing : haltedState.fault.kind ≠ none := by decide

theorem witness_FetchReadsTwoBytesOrFaults : lastWord.pc.toNat = 0xFFE ∧
    ({ State.reset with pc := 0xFFF } : State).pc.toNat > 0xFFE ∧
    ({ State.reset with pc := 0xFFF } : State).fault.kind = none := by decide

theorem witness_IllegalWordFaults : State.reset.fault.kind = none ∧ State.reset.fetch = some 0 ∧
    decodeWord 0 = .error .illegal0 := by decide

/-- A state that is not halted for each answer of `stepFault` but the two of an operation other than `STEP`. -/
theorem witness_StepRaisesExactlyTheListedFaults :
    stepFault { State.reset with pc := 0xFFF } = some .addressOutOfRange ∧
    stepFault State.reset = some .decodeError ∧
    stepFault (State.reset.withFetchWord 16 0x00EE) = some .stackUnderflow ∧
    stepFault ({ State.reset with sp := 16 }.withFetchWord 16 0x2208) = some .stackOverflow ∧
    stepFault ((regs [(4, 16)]).withFetchWord 16 0xE49E) = some .invalidKeyIndex ∧
    stepFault ((regs [(4, 15)]).withFetchWord 16 0xE49E) = none := by decide

theorem witness_FaultsArePrecise :
    operate .step State.reset = .next (State.reset.faulted .decodeError 0, .fault .decodeError) ∧
    State.reset.fault.kind = none ∧
    operate (.keySet 16) haltedState = .next (haltedState, .fault .invalidKeyIndex) ∧ haltedState.fault.kind ≠ none :=
  ⟨rfl, rfl, rfl, by decide⟩

/-- A WKEY at `PC`, once with no key pressed. -/
def waiting : State := { State.reset.withFetchWord 16 0xF50A with await := true, started := true }

theorem witness_OutcomesOfAStep : (answered .step waiting (fun _ => ())).map Prod.fst = some .blocked ∧
    (answered .step (pressed [15] waiting) (fun _ => ())).map Prod.fst = some .executed ∧
    (answered .step haltedState (fun _ => ())).map Prod.fst = some .halted ∧
    (answered .step State.reset (fun _ => ())).map Prod.fst = some (.fault .decodeError) ∧
    (∃ op x, waiting.fetch = some op ∧ decodeWord op = .ok (.wkey x)) ∧ (∀ k : Key, waiting.key[k] = false) :=
  ⟨by decide, by decide, by decide, by decide, ⟨0xF50A, 5, by decide, by decide⟩, by decide⟩

theorem witness_NextPcOfEveryInstruction : faultOf .ret { State.reset with sp := 1 } = none ∧
    faultOf .ret State.reset ≠ none := by decide

theorem witness_ReturnPopsTheNewestEntry : ({ State.reset with sp := 1 } : State).sp.val ≠ 0 ∧
    ({ State.reset with sp := 16 } : State).sp.val ≠ 0 ∧ State.reset.sp.val = 0 ∧ State.reset.fault.kind = none := by
  decide

theorem witness_CallPushesTheReturnAddress : ({ State.reset with sp := 15 } : State).sp.val < 16 ∧
    ({ State.reset with sp := 16 } : State).sp.val = 16 ∧ State.reset.fault.kind = none := by decide

theorem witness_JumpPlusV0GoesToTheSum : (0xFFF : Word).toNat < 4096 := by decide

/-- Sixteen calls from an empty stack, the most there can be. -/
theorem witness_CallsAndReturnsNest : State.reset.fault.kind = none ∧
    State.reset.sp.val + (List.replicate 16 ((0x202, 0x300) : Word × Word)).length ≤ 16 := by decide

/-- A destination other than `VF`, for the statements whose result clause needs one. -/
theorem witness_destination_is_not_VF : (14 : Reg) ≠ 15 := by decide

theorem witness_ShiftsMoveOneBit :
    (0x81 : Byte) = (if (regs [(2, 0x81)]).config.shiftInPlace then (regs [(2, 0x81)]).getV 1
      else (regs [(2, 0x81)]).getV 2) ∧
    (0x81 : Byte) = (if ({ regs [(1, 0x81)] with config := shifting } : State).config.shiftInPlace
      then ({ regs [(1, 0x81)] with config := shifting } : State).getV 1
      else ({ regs [(1, 0x81)] with config := shifting } : State).getV 2) := by decide

theorem witness_RandomByteIsMasked : (0x0F : Byte).getLsbD 7 = false := by decide

theorem witness_BcdStoresThreeDigits : ({ State.reset with i := 0xFFD } : State).i.toNat + 2 ≤ 0xFFF ∧
    ({ State.reset with i := 0xFFE } : State).i.toNat + 2 > 0xFFF ∧
    ({ State.reset with i := 0xFFE } : State).fault.kind = none := by decide

theorem witness_StmStoresTheRegisters : ({ State.reset with i := 0xFF0 } : State).i.toNat + (15 : Reg).val ≤ 0xFFF ∧
    ({ State.reset with i := 0xFF1 } : State).i.toNat + (15 : Reg).val > 0xFFF ∧
    ({ State.reset with i := 0xFF1 } : State).fault.kind = none := by decide

theorem witness_LdmLoadsTheRegisters : ({ State.reset with i := 0xFFF } : State).i.toNat + (0 : Reg).val ≤ 0xFFF ∧
    ({ State.reset with i := 0xFFF } : State).i.toNat + (1 : Reg).val > 0xFFF ∧
    ({ State.reset with i := 0xFFF } : State).fault.kind = none := by decide

theorem witness_LdmAfterStmRestores : State.reset.config.indexAutoInc = false ∧
    ({ State.reset with i := 0xFF0 } : State).i.toNat + (15 : Reg).val ≤ 0xFFF := by decide

/-- A state whose STM at 0x200 stores the word 00E0 over the next instruction. -/
theorem witness_StoreIsSeenByTheNextFetch :
    ({ regs [(1, 0xE0)] with i := 0x202 } : State).fault.kind = none ∧
    ({ regs [(1, 0xE0)] with i := 0x202 } : State).i.toNat =
      ({ regs [(1, 0xE0)] with i := 0x202 } : State).pc.toNat + 2 ∧
    1 ≤ (1 : Reg).val ∧ ({ regs [(1, 0xE0)] with i := 0x202 } : State).i.toNat + (1 : Reg).val ≤ 0xFFF ∧
    decodeWord (wordOfBytes (({ regs [(1, 0xE0)] with i := 0x202 } : State).getV 0)
      (({ regs [(1, 0xE0)] with i := 0x202 } : State).getV 1)) = .ok .cls := by decide

/-- A memory that is not empty in canonical form, made by two histories of writes. -/
theorem witness_MemoriesThatReadAlikeAreEqual :
    Memory.wf defaultFont [(0x300, 1), (0x301, 2)] ∧
    Memory.wf defaultFont (Memory.write defaultFont (Memory.write defaultFont [] 0x301 2) 0x300 1) ∧
    ∀ a, Memory.read defaultFont [(0x300, 1), (0x301, 2)] a =
      Memory.read defaultFont (Memory.write defaultFont (Memory.write defaultFont [] 0x301 2) 0x300 1) a :=
  ⟨by decide, by decide, fun _ => rfl⟩

/-- A sprite of height 15 that ends at 0xFFF, one that does not fit, and height 0 anywhere. -/
theorem witness_DrawXorsTheSprite : ({ State.reset with i := 0xFF1 } : State).i.toNat + 15 - 1 ≤ 0xFFF ∧
    ({ State.reset with i := 0xFF2 } : State).i.toNat + 15 - 1 > 0xFFF ∧
    ({ State.reset with i := 0xFF2 } : State).fault.kind = none ∧ (0 : Nat) ≤ 15 := by decide

/-- Sprite bit 0 of row 0 lands on the pixel at the anchor, and nothing lands left of it. -/
theorem witness_DrawXorsTheSprite_pixels :
    ({ State.reset with i := 0x300 }.storeBytes 0x300 [0x80]).covers 3 2 1 2 3 ∧
    ¬ ({ State.reset with i := 0x300 }.storeBytes 0x300 [0x80]).covers 3 2 1 2 2 := by
  refine ⟨⟨0, 0, by decide, by decide, by decide, by decide⟩, ?_⟩
  rintro ⟨row, bit, -, -, -, h⟩
  have h' : (2 : Byte).toNat % 32 + row = 2 ∧ (3 : Byte).toNat % 64 + bit = 2 := h
  have : (3 : Byte).toNat % 64 = 3 := rfl
  omega

/-- Two draws whose coordinates are not in `VF`: the first leaves them as they were. -/
theorem witness_DrawTwiceRestoresTheScreen : (0 : Nat) = 0 ∨ State.reset.i.toNat + 0 - 1 ≤ 0xFFF := by decide

theorem witness_DrawTwiceRestoresTheScreen_coordinates :
    ∃ t, exec (.drw 0 1 5) (regs [(0, 10), (1, 5)]) = .next t ∧
      t.getV 0 = (regs [(0, 10), (1, 5)]).getV 0 ∧ t.getV 1 = (regs [(0, 10), (1, 5)]).getV 1 :=
  ⟨_, exec_drw_ok 0 1 (by decide), State.getV_setV_other _ _ (by decide), State.getV_setV_other _ _ (by decide)⟩

theorem witness_SpriteAtTheRightEdge :
    (({ regs [(0, 60)] with i := 0xFFF } : State).storeBytes 0xFFF [0xFF]).getV 0 = 60 ∧
    (({ regs [(0, 60)] with i := 0xFFF } : State).storeBytes 0xFFF [0xFF]).getV 1 = 0 ∧
    (({ regs [(0, 60)] with i := 0xFFF } : State).storeBytes 0xFFF [0xFF]).i.toNat ≤ 0xFFF ∧
    (({ regs [(0, 60)] with i := 0xFFF } : State).storeBytes 0xFFF [0xFF]).readByte 0xFFF = 0xFF := by decide

theorem witness_KeySkipsTestTheKey : ((regs [(4, 15)]).getV 4).toNat = (15 : Key).val ∧
    ((regs [(4, 16)]).getV 4).toNat > 15 ∧ (regs [(4, 16)]).fault.kind = none := by decide

theorem witness_WaitForKeyTakesTheLowest : (∀ k : Key, State.reset.key[k] = false) ∧
    (pressed [9, 3] State.reset).key[(3 : Key)] = true ∧
    ∀ p : Key, p.val < (3 : Key).val → (pressed [9, 3] State.reset).key[p] = false := by decide

theorem witness_OnlyListedRegistersAreWritten :
    exec (.addi 0 5) State.reset = .next ((State.reset.setV 0 5).commit 0x202) ∧ writesRegister (.addi 0 5) 15 = false :=
  ⟨rfl, by decide⟩

/-- For every piece, an instruction that changes it. -/
theorem witness_EachPieceHasItsWriters :
    stepped 0x00E0 (lit [(0, 0)] State.reset) (fun t => t.fb.pixel 0 0) = some false ∧
    stepped 0xF333 { regs [(3, 254)] with i := 0x300 } (fun t => t.readByte 0x300) = some 2 ∧
    stepped 0x2208 State.reset (fun t => (t.stack[0], t.sp)) = some (0x202, 1) ∧
    stepped 0xF315 (regs [(3, 60)]) State.dt = some 60 ∧ stepped 0xF318 (regs [(3, 60)]) State.st = some 60 ∧
    stepped 0xF065 { State.reset with config := indexing } State.i = some 1 := by decide

theorem witness_TickIntervalIsOneStepAndOneTick : State.reset.config.tickOrder = .stepFirst ∧
    ({ State.reset with config := { defaultConfig with tickOrder := .tickFirst } } : State).config.tickOrder =
      .tickFirst := by decide

/-- An answered run of ticks: the last of three finds `ST = 1`. -/
theorem witness_OneToneOnTheLastTick : (2 : Nat) < 3 ∧ 2 + 1 = ({ State.reset with st := 3 } : State).st.toNat := by decide

theorem witness_KeyOperationsWriteOneKey : (0 : Key) ≠ 15 ∧ (16 : Nat) > 15 ∧ State.reset.fault.kind = none := by decide

theorem witness_KeyReadAnswersTheKey : (16 : Nat) > 15 ∧ State.reset.fault.kind = none := by decide

/-- The longest program that loads and the shortest that does not. -/
theorem witness_LoadCopiesTheProgram : State.reset.started = false ∧ State.reset.fault.kind = none ∧
    (List.replicate 3584 (0xAB : Byte)).length ≤ 3584 ∧ (List.replicate 3585 (0xAB : Byte)).length > 3584 :=
  ⟨rfl, rfl, by rw [List.length_replicate], by rw [List.length_replicate]; decide⟩

theorem witness_LateLoadIsRefused :
    operate .step State.reset = .next (State.reset.faulted .decodeError 0, .fault .decodeError) ∧
    operate .step (State.reset.withFetchWord 16 0x1200) =
      .next ((State.reset.withFetchWord 16 0x1200).commit 0x200, .executed) := ⟨rfl, rfl⟩

theorem witness_ResetGivesEveryPieceItsValue : (79 : Nat) < 80 ∧ 80 ≤ (80 : Nat) := by decide

theorem witness_ParametersNeverChange : operate .reset State.reset = .next (State.reset.doReset, .done) := rfl

/-- A waiting machine meets the invariant, with `AWAIT` set: the premise of StepKeepsTheInvariant and of
HistoriesKeepTheInvariant. -/
theorem witness_invariant : waiting.Inv where
  memory   := by decide
  index    := by decide
  counter  := by decide
  returns  := by decide
  noFault  := by decide
  awaiting := fun _ => ⟨rfl, 0xF50A, 5, by decide, by decide⟩

/-- The invariant's live return address at its bound: a CALL at 0xFFE has been executed. -/
theorem witness_invariant_return_bound :
    ({ State.reset with sp := 1, stack := State.reset.stack.set 0 0x1000 } : State).Inv where
  memory   := by decide
  index    := by decide
  counter  := by decide
  returns  := by decide
  noFault  := by decide
  awaiting := by decide

theorem witness_StepKeepsTheInvariant : step waiting = .next waiting := rfl

theorem witness_HistoriesKeepTheInvariant : runOps [.step, .fbRead] waiting =
    .next (waiting, [.blocked, .pixels waiting.snapshot]) := rfl

theorem witness_HaltedUntilReset : haltedState.fault.kind ≠ none ∧
    Operation.reset ∉ [Operation.step, .tick, .keySet 3] ∧
    (match runOps [.step, .tick, .keySet 3] haltedState with
      | .next (t, rs) => some (t.key[3], rs)
      | .fault _ => none
      | .refused _ => none) = some (true, [.halted, .tone false, .done]) := by decide

theorem witness_EndedProgramStaysEnded : (State.reset.withFetchWord 16 0x1200).ended :=
  ⟨rfl, 0x1200, by decide, by decide⟩

end Sys2Proof.Tests
end

namespace Sys2Proof.Machine

/-! ### The construction parameters (00_scope.md R8, R9) under every operation -/

/-- The phases of `STEP` (40_step_and_control.md R91 to R93): a halted machine stays as it is; a fetch or decode fault is
entered; or the decoded instruction is executed. -/
theorem step_cases (s : State) :
    (s.halted = true ∧ step s = .next s) ∨
    (s.halted = false ∧ s.fetch = none ∧ step s = raise .addressOutOfRange 0 s) ∨
    (s.halted = false ∧ ∃ op r, s.fetch = some op ∧ decodeWord op = .error r ∧ step s = raise .decodeError op s) ∨
    (s.halted = false ∧ ∃ op i, s.fetch = some op ∧ decodeWord op = .ok i ∧ step s = exec i s) := by
  cases hh : s.halted with
  | true => exact .inl ⟨rfl, step_halted hh⟩
  | false =>
    cases hf : s.fetch with
    | none => exact .inr (.inl ⟨rfl, rfl, step_fetch_fault hh hf⟩)
    | some op =>
      cases hd : decodeWord op with
      | error r => exact .inr (.inr (.inl ⟨rfl, op, r, rfl, hd, step_decode_fault hh hf hd⟩))
      | ok i => exact .inr (.inr (.inr ⟨rfl, op, i, rfl, hd, step_executes hh hf hd⟩))

/-- An operation `STEP` that gives a next state is a `step` to it. -/
theorem step_of_operate_step {s t : State} {r : Response} (h : operate .step s = .next (t, r)) :
    step s = .next t ∧ r = stepResponse s t := by
  simp only [operate] at h
  split at h
  · next u hu => cases h; exact ⟨hu, rfl⟩
  · cases h
  · cases h

theorem raise_keeps_config {k : Fault} {op : Word} {s t : State} (h : raise k op s = .next t) :
    t.config = s.config := by
  cases h
  exact s.latchFault_config k s.pc op

theorem exec_keeps_config {i : Instr} {s t : State} (h : exec i s = .next t) : t.config = s.config := by
  obtain ⟨k, -, he⟩ | ⟨-, -, -, he⟩ | ⟨-, u, p, he, -, -, hu, -⟩ := exec_cases i s
  · exact raise_keeps_config (he.symm.trans h)
  · cases he.symm.trans h
    rfl
  · cases he.symm.trans h
    exact hu

theorem step_keeps_config {s t : State} (h : step s = .next t) : t.config = s.config := by
  obtain ⟨-, hs⟩ | ⟨-, -, hs⟩ | ⟨-, _, _, -, -, hs⟩ | ⟨-, _, _, -, -, hs⟩ := step_cases s
  · cases hs.symm.trans h
    rfl
  · exact raise_keeps_config (hs.symm.trans h)
  · exact raise_keeps_config (hs.symm.trans h)
  · exact exec_keeps_config (hs.symm.trans h)

@[simp] theorem raiseOutside_config (k : Fault) (s : State) : (raiseOutside k s).1.config = s.config :=
  s.latchFault_config k s.pc 0

theorem doLoad_keeps_config {bytes : List Byte} {s t : State} {r : Response}
    (h : doLoad bytes s = .next (t, r)) : t.config = s.config := by
  unfold doLoad at h
  split at h
  · cases h
  · split at h
    · cases h
      exact s.latchFault_config .programTooLarge s.pc 0
    · cases h
      exact s.storeBytes_config progBase bytes

@[simp] theorem doKeyWrite_config (k : Nat) (pressed : Bool) (s : State) :
    (doKeyWrite k pressed s).1.config = s.config := by
  unfold doKeyWrite
  split
  · rfl
  · exact raiseOutside_config .invalidKeyIndex s

@[simp] theorem doKeyRead_config (k : Nat) (s : State) : (doKeyRead k s).1.config = s.config := by
  unfold doKeyRead
  split
  · rfl
  · exact raiseOutside_config .invalidKeyIndex s

/-- The parameters of the state in an operation's result are those of the next state it is said to give. -/
theorem config_of_next_eq {c : Config} {p : State × Response} {t : State} {r : Response} (hp : p.1.config = c)
    (h : (.next p : Host.Outcome (State × Response) Fault Refusal) = .next (t, r)) : t.config = c := by
  cases h
  exact hp

theorem operate_keeps_config {o : Operation} {s t : State} {r : Response} (h : operate o s = .next (t, r)) :
    t.config = s.config := by
  cases o with
  | reset => exact config_of_next_eq s.doReset_config h
  | load bytes => exact doLoad_keeps_config h
  | step => exact step_keeps_config (step_of_operate_step h).1
  | tick => exact config_of_next_eq s.doTick_config h
  | keySet k => exact config_of_next_eq (doKeyWrite_config k true s) h
  | keyClear k => exact config_of_next_eq (doKeyWrite_config k false s) h
  | keyRead k => exact config_of_next_eq (doKeyRead_config k s) h
  | fbRead => exact config_of_next_eq rfl h

/-- Settles O55: every operation's own update keeps `config`; a `STEP` goes by its phases. -/
theorem parametersNeverChange : Obligations.ParametersNeverChange := by
  intro o s t r h
  exact operate_keeps_config h

end Sys2Proof.Machine

namespace Sys2Proof.Machine

/-! ### What an instruction writes (10_state.md R20 to R36) -/

/-- The state with what an instruction writes when it neither faults nor blocks, before the commit of `PC` and `AWAIT`
(40_step_and_control.md R94, R95). `exec_commits` ties it to `exec`. -/
def State.effect (s : State) (i : Instr) : State :=
  match i with
  | .cls => { s with fb := clearFramebuffer }
  | .drw x y n => { s with fb := (s.drawing x y n).fb }.setV vf (collisionFlag (s.drawing x y n).hit)
  | .ret => { s with sp := ⟨s.sp.val - 1, by omega⟩ }
  | .call _ => { s with stack := s.stack.setIfInBounds s.sp.val (s.pc + 2), sp := ⟨min (s.sp.val + 1) 16, by omega⟩ }
  | .ldi x kk => s.setV x kk
  | .addi x kk => s.setV x (s.getV x + kk)
  | .ld x y => s.setV x (s.getV y)
  | .rnd x kk => { s.setV x (Config.freeRnd s.draws &&& kk) with draws := s.draws + 1 }
  | .lddt x => s.setV x s.dt
  | .wkey x => s.setV x (BitVec.ofNat 8 (s.lowestKey.getD 0))
  | .or x y => s.setResultAndFlag x (s.getV x ||| s.getV y) clearedFlag
  | .and x y => s.setResultAndFlag x (s.getV x &&& s.getV y) clearedFlag
  | .xor x y => s.setResultAndFlag x (s.getV x ^^^ s.getV y) clearedFlag
  | .add x y => s.setResultAndFlag x (s.getV x + s.getV y) (carryFlag (s.getV x) (s.getV y))
  | .sub x y => s.setResultAndFlag x (s.getV x - s.getV y) (notBorrowFlag (s.getV x) (s.getV y))
  | .subn x y => s.setResultAndFlag x (s.getV y - s.getV x) (notBorrowFlag (s.getV y) (s.getV x))
  | .shr x y => s.setResultAndFlag x (s.shiftSource x y >>> 1) (lowBitFlag (s.shiftSource x y))
  | .shl x y => s.setResultAndFlag x (s.shiftSource x y <<< 1) (highBitFlag (s.shiftSource x y))
  | .ldix nnn => s.setI nnn
  | .addix x => s.setI (indexPlus s.i (s.getV x))
  | .font x => s.setI (glyphAddress (s.getV x))
  | .bcd x => s.storeBytes s.i.toNat (bcdDigits (s.getV x))
  | .stm x => (s.storeBytes s.i.toNat (s.regsUpTo x)).setI (s.indexAfterBlock x)
  | .ldm x => { s with v := loadRegs s.v 0 (s.readBytes s.i.toNat (x.val + 1)) }.setI (s.indexAfterBlock x)
  | .stdt x => { s with dt := s.getV x }
  | .stst x => { s with st := s.getV x }
  | .jp _ | .jpv0 _ | .sei _ _ | .snei _ _ | .se _ _ | .sne _ _ | .skp _ | .sknp _ => s

/-- The execution that blocks: a WKEY with no key pressed (44_keys_timers.md R195). -/
def State.blocksOn (s : State) (i : Instr) : Prop := (∃ x, i = .wkey x) ∧ ∀ k : Key, s.key[k] = false

/-! ### When `faultOf` names no fault (60_exceptions.md R211), as bounds -/

theorem faultOf_ret_eq_none {s : State} : faultOf .ret s = none ↔ s.sp.val ≠ 0 := by simp [faultOf]

theorem faultOf_call_eq_none {s : State} {nnn : Word} : faultOf (.call nnn) s = none ↔ s.sp.val < 16 := by
  simp [faultOf]; omega

theorem faultOf_bcd_eq_none {s : State} {x : Reg} : faultOf (.bcd x) s = none ↔ s.i.toNat + 2 ≤ 0xFFF := by
  simp [faultOf]

theorem faultOf_stm_eq_none {s : State} {x : Reg} : faultOf (.stm x) s = none ↔ s.i.toNat + x.val ≤ 0xFFF := by
  simp [faultOf]

theorem faultOf_ldm_eq_none {s : State} {x : Reg} : faultOf (.ldm x) s = none ↔ s.i.toNat + x.val ≤ 0xFFF := by
  simp [faultOf]

theorem faultOf_drw_eq_none {s : State} {x y : Reg} {n : Nat} :
    faultOf (.drw x y n) s = none ↔ n = 0 ∨ s.i.toNat + n - 1 ≤ 0xFFF := by
  simp [faultOf]; omega

theorem faultOf_skp_eq_none {s : State} {x : Reg} : faultOf (.skp x) s = none ↔ (s.getV x).toNat < 16 := by
  simp [faultOf]; omega

theorem faultOf_sknp_eq_none {s : State} {x : Reg} : faultOf (.sknp x) s = none ↔ (s.getV x).toNat < 16 := by
  simp [faultOf]; omega

/-! ### The three ways an execution can go -/

theorem exec_faults {i : Instr} {s : State} {k : Fault} (h : faultOf i s = some k) :
    exec i s = .next (s.latchFault k s.pc (encode i)) := by
  obtain ⟨k', hk, he⟩ | ⟨hn, -⟩ | ⟨hn, -⟩ := exec_cases i s
  · cases hk.symm.trans h
    exact he
  · cases hn.symm.trans h
  · cases hn.symm.trans h

theorem exec_blocks {i : Instr} {s : State} (h : s.blocksOn i) :
    exec i s = .next { s with await := true, started := true } := by
  obtain ⟨⟨x, rfl⟩, hk⟩ := h
  exact exec_wkey_blocked x hk

/-- RET's next `PC` is an entry of the stack: the newest live one, when there is one. -/
theorem nextPc_ret (s : State) : nextPc .ret s = s.stack[s.sp.val - 1]'(by omega) := by
  have hlt : s.sp.val - 1 < 16 := by omega
  simp [nextPc, hlt]

/-- A skip whose condition is `c` commits the next `PC` of R26. -/
theorem skipIf_of_iff {c : Bool} {p : Prop} [Decidable p] (s : State) (h : c = true ↔ p) :
    skipIf c s = .next (s.commit (if p then s.pc + 4 else s.pc + 2)) := by
  rw [skipIf_eq]
  simp only [h]

theorem exec_ret_commits {s : State} (h : s.sp.val ≠ 0) :
    exec .ret s = .next ((s.effect .ret).commit (nextPc .ret s)) := by
  rw [exec_ret_ok h, nextPc_ret]
  rfl

theorem exec_call_commits {s : State} (nnn : Word) (h : s.sp.val < 16) :
    exec (.call nnn) s = .next ((s.effect (.call nnn)).commit (nextPc (.call nnn) s)) := by
  have hsp : min (s.sp.val + 1) 16 = s.sp.val + 1 := by omega
  have hst : s.stack.setIfInBounds s.sp.val (s.pc + 2) = s.stack.set s.sp.val (s.pc + 2) := by
    ext k hk
    simp [Vector.getElem_setIfInBounds, Vector.getElem_set]
  simp only [exec_call_ok nnn h, State.effect, nextPc, hsp, hst]

theorem exec_wkey_commits {s : State} (x : Reg) (h : ∃ k : Key, s.key[k] = true) :
    exec (.wkey x) s = .next ((s.effect (.wkey x)).commit (nextPc (.wkey x) s)) := by
  obtain ⟨k, hk, hmin⟩ := State.exists_lowest_key h
  have hl : s.lowestKey = some k.val := State.lowestKey_eq_some.2 ⟨k, rfl, hk, hmin⟩
  simp only [exec_wkey_resolves x hk hmin, State.effect, nextPc, hl, if_pos h, Option.getD_some]

/-- What an instruction does when it neither faults nor blocks: its effect, then the commit of the next `PC`. -/
theorem exec_commits {i : Instr} {s : State} (hf : faultOf i s = none) (hb : ¬ s.blocksOn i) :
    exec i s = .next ((s.effect i).commit (nextPc i s)) := by
  cases i with
  | ret => exact exec_ret_commits (faultOf_ret_eq_none.1 hf)
  | call nnn => exact exec_call_commits nnn (faultOf_call_eq_none.1 hf)
  | bcd x => exact exec_bcd_ok x (faultOf_bcd_eq_none.1 hf)
  | stm x => exact exec_stm_ok x (faultOf_stm_eq_none.1 hf)
  | ldm x => exact exec_ldm_ok x (faultOf_ldm_eq_none.1 hf)
  | drw x y n => exact exec_drw_ok x y (faultOf_drw_eq_none.1 hf)
  | wkey x =>
    refine exec_wkey_commits x ?_
    by_contra h
    exact hb ⟨⟨x, rfl⟩, by simpa using h⟩
  | skp x =>
    have hx := faultOf_skp_eq_none.1 hf
    have hk : (s.getV x).toNat = (⟨_, hx⟩ : Key).val := rfl
    rw [exec_skp_ok hk]
    exact skipIf_of_iff s (by simp [hx])
  | sknp x =>
    have hx := faultOf_sknp_eq_none.1 hf
    have hk : (s.getV x).toNat = (⟨_, hx⟩ : Key).val := rfl
    rw [exec_sknp_ok hk]
    exact skipIf_of_iff s (by simp [hx])
  | sei x kk => exact skipIf_of_iff s beq_iff_eq
  | snei x kk => exact skipIf_of_iff s bne_iff_ne
  | se x y => exact skipIf_of_iff s beq_iff_eq
  | sne x y => exact skipIf_of_iff s bne_iff_ne
  | _ => rfl

/-- The three ways an execution can go, each with its next state. -/
theorem exec_outcome (i : Instr) (s : State) :
    (∃ k, faultOf i s = some k ∧ exec i s = .next (s.latchFault k s.pc (encode i))) ∨
    (faultOf i s = none ∧ s.blocksOn i ∧ exec i s = .next { s with await := true, started := true }) ∨
    (faultOf i s = none ∧ ¬ s.blocksOn i ∧ exec i s = .next ((s.effect i).commit (nextPc i s))) := by
  cases hf : faultOf i s with
  | some k => exact .inl ⟨k, rfl, exec_faults hf⟩
  | none =>
    by_cases hb : s.blocksOn i
    · exact .inr (.inl ⟨rfl, hb, exec_blocks hb⟩)
    · exact .inr (.inr ⟨rfl, hb, exec_commits hf hb⟩)

/-- A piece of state other than `PC`, `AWAIT`, `FAULT` and `started` changes only where the instruction's effect changes
it. -/
theorem exec_changes_by_effect {α : Type} (f : State → α)
    (hf : ∀ (u : State) (p : Word) (w b : Bool) (r : FaultRecord),
      f { u with pc := p, await := w, started := b, fault := r } = f u)
    {i : Instr} {s t : State} (h : exec i s = .next t) (hne : f t ≠ f s) : f (s.effect i) ≠ f s := by
  obtain ⟨k, -, he⟩ | ⟨-, -, he⟩ | ⟨-, -, he⟩ := exec_outcome i s
  · cases he.symm.trans h
    refine absurd ?_ hne
    unfold State.latchFault
    split
    · exact hf s s.pc s.await s.started _
    · rfl
  · cases he.symm.trans h
    exact absurd (hf s s.pc true true s.fault) hne
  · cases he.symm.trans h
    exact fun e => hne ((hf _ _ _ _ _).trans e)

/-! ### The effect, piece by piece -/

@[simp] theorem State.effect_key (s : State) (i : Instr) : (s.effect i).key = s.key := by cases i <;> rfl

@[simp] theorem State.effect_fault (s : State) (i : Instr) : (s.effect i).fault = s.fault := by cases i <;> rfl

@[simp] theorem State.effect_config (s : State) (i : Instr) : (s.effect i).config = s.config := by cases i <;> rfl

theorem writer_of_effect_fb {i : Instr} {s : State} (h : (s.effect i).fb ≠ s.fb) :
    i = .cls ∨ ∃ x y n, i = .drw x y n := by
  cases i with
  | cls => exact .inl rfl
  | drw x y n => exact .inr ⟨x, y, n, rfl⟩
  | _ => exact absurd rfl h

theorem writer_of_effect_readByte {i : Instr} {s : State} {a : Nat}
    (h : (s.effect i).readByte a ≠ s.readByte a) : ∃ x, i = .bcd x ∨ i = .stm x := by
  cases i with
  | bcd x => exact ⟨x, .inl rfl⟩
  | stm x => exact ⟨x, .inr rfl⟩
  | _ => exact absurd rfl h

theorem writer_of_effect_stack {i : Instr} {s : State} (h : (s.effect i).stack ≠ s.stack) : ∃ nnn, i = .call nnn := by
  cases i with
  | call nnn => exact ⟨nnn, rfl⟩
  | _ => exact absurd rfl h

theorem writer_of_effect_sp {i : Instr} {s : State} (h : (s.effect i).sp ≠ s.sp) :
    i = .ret ∨ ∃ nnn, i = .call nnn := by
  cases i with
  | ret => exact .inl rfl
  | call nnn => exact .inr ⟨nnn, rfl⟩
  | _ => exact absurd rfl h

theorem writer_of_effect_dt {i : Instr} {s : State} (h : (s.effect i).dt ≠ s.dt) : ∃ x, i = .stdt x := by
  cases i with
  | stdt x => exact ⟨x, rfl⟩
  | _ => exact absurd rfl h

theorem writer_of_effect_st {i : Instr} {s : State} (h : (s.effect i).st ≠ s.st) : ∃ x, i = .stst x := by
  cases i with
  | stst x => exact ⟨x, rfl⟩
  | _ => exact absurd rfl h

/-- STM and LDM move `I` only under `QUIRK_INDEX_AUTOINC` (42_index_memory.md R162, R165). -/
theorem State.indexAutoInc_of_indexAfterBlock_ne {s : State} {x : Reg} (h : s.indexAfterBlock x ≠ s.i) :
    s.config.indexAutoInc = true := by
  by_contra hoff
  exact h (if_neg hoff)

theorem writer_of_effect_i {i : Instr} {s : State} (h : (s.effect i).i ≠ s.i) :
    (∃ nnn, i = .ldix nnn) ∨ (∃ x, i = .addix x ∨ i = .font x) ∨
      (s.config.indexAutoInc = true ∧ ∃ x, i = .stm x ∨ i = .ldm x) := by
  cases i with
  | ldix nnn => exact .inl ⟨nnn, rfl⟩
  | addix x => exact .inr (.inl ⟨x, .inl rfl⟩)
  | font x => exact .inr (.inl ⟨x, .inr rfl⟩)
  | stm x => exact .inr (.inr ⟨State.indexAutoInc_of_indexAfterBlock_ne h, x, .inl rfl⟩)
  | ldm x => exact .inr (.inr ⟨State.indexAutoInc_of_indexAfterBlock_ne h, x, .inr rfl⟩)
  | _ => exact absurd rfl h

theorem State.getV_setResultAndFlag_other (s : State) {x r : Reg} (b f : Byte) (h : (r == x || r == vf) = false) :
    (s.setResultAndFlag x b f).getV r = s.getV r := by
  obtain ⟨hx, hvf⟩ : r ≠ x ∧ r ≠ vf := by simpa using h
  rw [State.getV_setResultAndFlag, if_neg hvf, if_neg hx]

/-- The effect writes no general register outside the list of 10_state.md R22 and R23. -/
theorem State.getV_effect {i : Instr} {r : Reg} (s : State) (h : writesRegister i r = false) :
    (s.effect i).getV r = s.getV r := by
  cases i with
  | ldi x _ | addi x _ | ld x _ | lddt x | wkey x => exact s.getV_setV_other _ (beq_eq_false_iff_ne.1 h)
  | rnd x _ => exact s.getV_setV_other _ (beq_eq_false_iff_ne.1 h)
  | or x _ | and x _ | xor x _ | add x _ | sub x _ | shr x _ | subn x _ | shl x _ =>
    exact s.getV_setResultAndFlag_other _ _ h
  | drw x y n => exact State.getV_setV_other _ _ (beq_eq_false_iff_ne.1 h)
  | ldm x =>
    have hr : ¬ r.val ≤ x.val := by simpa [writesRegister] using h
    have hl := getElem_loadRegs (s.readBytes s.i.toNat (x.val + 1)) s.v 0 r.val r.isLt
    rw [dif_neg (by rw [State.length_readBytes]; omega)] at hl
    exact hl
  | _ => rfl

/-! ### The next `PC`, and which pieces an instruction writes -/

/-- Settles O14, by the three ways an execution can go. -/
theorem nextPcOfEveryInstruction : Obligations.NextPcOfEveryInstruction := by
  intro i s
  obtain ⟨k, hf, he⟩ | ⟨hf, ⟨⟨x, rfl⟩, hk⟩, he⟩ | ⟨hf, -, he⟩ := exec_outcome i s
  · exact ⟨_, he, by simp [hf], fun _ => s.latchFault_pc k s.pc _⟩
  · exact ⟨_, he, fun _ => by simp [nextPc, hk], fun h => absurd hf h⟩
  · exact ⟨_, he, fun _ => rfl, fun h => absurd hf h⟩

/-- Settles O42: the effect alone writes registers, and only the listed ones. -/
theorem onlyListedRegistersAreWritten : Obligations.OnlyListedRegistersAreWritten := by
  intro i s t r h hw
  by_contra hne
  exact exec_changes_by_effect (·.getV r) (fun _ _ _ _ _ => rfl) h hne (s.getV_effect hw)

/-- Settles O43: a changed piece is changed by the effect, and each effect has its writers. -/
theorem eachPieceHasItsWriters : Obligations.EachPieceHasItsWriters := by
  intro i s t h
  refine ⟨fun hne => writer_of_effect_fb (exec_changes_by_effect State.fb (fun _ _ _ _ _ => rfl) h hne),
    fun ⟨a, hne⟩ => writer_of_effect_readByte (exec_changes_by_effect (·.readByte a) (fun _ _ _ _ _ => rfl) h hne),
    fun hne => writer_of_effect_stack (exec_changes_by_effect State.stack (fun _ _ _ _ _ => rfl) h hne),
    fun hne => writer_of_effect_sp (exec_changes_by_effect State.sp (fun _ _ _ _ _ => rfl) h hne),
    fun hne => writer_of_effect_dt (exec_changes_by_effect State.dt (fun _ _ _ _ _ => rfl) h hne),
    fun hne => writer_of_effect_st (exec_changes_by_effect State.st (fun _ _ _ _ _ => rfl) h hne),
    fun hne => writer_of_effect_i (exec_changes_by_effect State.i (fun _ _ _ _ _ => rfl) h hne), ?_⟩
  by_contra hne
  exact exec_changes_by_effect State.key (fun _ _ _ _ _ => rfl) h hne (s.effect_key i)

/-! ### `ST` and `AWAIT` are never read (10_state.md R31, R38) -/

theorem faultOf_st_await (i : Instr) (s : State) (b : Byte) (w : Bool) :
    faultOf i { s with st := b, await := w } = faultOf i s := by cases i <;> rfl

theorem nextPc_st_await (i : Instr) (s : State) (b : Byte) (w : Bool) :
    nextPc i { s with st := b, await := w } = nextPc i s := by cases i <;> rfl

/-- No effect reads `ST` or `AWAIT`. -/
theorem State.effect_st_await (i : Instr) (s : State) (b : Byte) (w : Bool) :
    { State.effect { s with st := b, await := w } i with st := (s.effect i).st, await := (s.effect i).await } =
      s.effect i := by cases i <;> rfl

theorem State.latchFault_st_await (s : State) (k : Fault) (a op : Word) (b : Byte) (w : Bool) :
    State.latchFault { s with st := b, await := w } k a op =
      { s.latchFault k a op with st := b, await := w } := by
  unfold State.latchFault
  split <;> rfl

/-- Settles O44: the way an execution goes, its effect and its next `PC` are the same whatever `ST` and `AWAIT` hold. -/
theorem soundTimerAndAwaitAreNeverRead : Obligations.SoundTimerAndAwaitAreNeverRead := by
  intro i s b w
  obtain ⟨k, hf, he⟩ | ⟨-, hb, he⟩ | ⟨hf, hb, he⟩ := exec_outcome i s
  · exact ⟨_, _, he, exec_faults ((faultOf_st_await i s b w).trans hf), by rw [State.latchFault_st_await]⟩
  · exact ⟨_, _, he, exec_blocks hb, rfl⟩
  · refine ⟨_, _, he, exec_commits ((faultOf_st_await i s b w).trans hf) hb, ?_⟩
    rw [nextPc_st_await]
    exact congrArg (State.commit · (nextPc i s)) (s.effect_st_await i b w)

/-! ### RESET and the invariant of the block (10_state.md R40, R42) -/

/-- `RESET` gives a state that meets the invariant, whatever it starts from. -/
theorem State.doReset_inv (s : State) : s.doReset.Inv where
  memory   := Memory.wf_nil
  index    := by rw [State.doReset_i]; decide
  counter  := by rw [State.doReset_pc]; decide
  returns  := fun _ hk => absurd hk (Nat.not_lt_zero _)
  noFault  := fun _ => ⟨rfl, rfl⟩
  awaiting := fun h => by cases h

/-- After `RESET` memory reads as the font and zero above it (20_memory.md R52). -/
@[simp] theorem State.readByte_doReset (s : State) (a : Nat) : s.doReset.readByte a = background s.config.font a := rfl

/-- Settles O56: the reset state is `RESET` of itself. -/
theorem resetStateMeetsTheInvariant : Obligations.ResetStateMeetsTheInvariant := State.reset.doReset_inv

/-- Settles O54: each piece by its value in `State.reset`, memory by the background. -/
theorem resetGivesEveryPieceItsValue : Obligations.ResetGivesEveryPieceItsValue := by
  intro s
  refine ⟨s.doReset, rfl, fun r => ?_, rfl, rfl, rfl, fun k => ?_, rfl, rfl, fun a h => ?_, fun a h => ?_,
    pixel_clearFramebuffer, fun k => ?_, rfl, rfl, rfl⟩
  · show (Vector.replicate 16 (0 : Byte))[r] = 0
    simp
  · simp [State.reset]
  · simp [background, h]
  · simp [background, Nat.not_lt.2 h]
  · simp [State.reset]

/-! ### Decoded instructions are well-formed (30_encoding.md R72) -/

theorem addressFits_fieldNNN (op : Word) : addressFits (fieldNNN op) = true := by
  have := bits_lt op 11 0
  simp only [addressFits, fieldNNN, BitVec.toNat_ofNat, decide_eq_true_eq]
  omega

theorem heightFits_fieldN (op : Word) : heightFits (fieldN op) = true :=
  decide_eq_true (bits_lt op 3 0)

theorem wellFormed_of_decode8 {op : Word} {i : Instr} (h : decode8 op = .ok i) : wellFormed i = true := by
  unfold decode8 at h
  split at h <;> cases h <;> rfl

theorem wellFormed_of_decodeE {op : Word} {i : Instr} (h : decodeE op = .ok i) : wellFormed i = true := by
  unfold decodeE at h
  split at h <;> cases h <;> rfl

theorem wellFormed_of_decodeF {op : Word} {i : Instr} (h : decodeF op = .ok i) : wellFormed i = true := by
  unfold decodeF at h
  split at h <;> cases h <;> rfl

/-- A word that decodes gives an instruction whose address has 12 bits and whose height has 4. -/
theorem wellFormed_of_decodeWord {op : Word} {i : Instr} (h : decodeWord op = .ok i) : wellFormed i = true := by
  unfold decodeWord at h
  split at h -- case `h_k` is high nibble `k - 1`
  case h_1 =>
    split at h
    · cases h; rfl
    · split at h <;> cases h
      rfl
  case h_2 | h_3 | h_11 | h_12 => cases h; exact addressFits_fieldNNN op
  case h_14 => cases h; exact heightFits_fieldN op
  case h_9 => exact wellFormed_of_decode8 h
  case h_15 => exact wellFormed_of_decodeE h
  case h_16 => exact wellFormed_of_decodeF h
  case h_6 | h_10 =>
    split at h <;> cases h
    rfl
  all_goals cases h; rfl

/-! ### The effect and the invariant -/

theorem State.Inv.effect_memory {i : Instr} {s : State} (h : s.Inv) (hf : faultOf i s = none) :
    Memory.wf s.config.font (s.effect i).mem := by
  cases i with
  | bcd x =>
    have hi := faultOf_bcd_eq_none.1 hf
    exact Memory.wf_writeList _ h.memory (by simp only [length_bcdDigits, memSize]; omega)
  | stm x =>
    have hi := faultOf_stm_eq_none.1 hf
    exact Memory.wf_writeList _ h.memory (by simp only [State.length_regsUpTo, memSize]; omega)
  | _ => exact h.memory

theorem State.indexAfterBlock_le {s : State} (x : Reg) (h : s.i.toNat ≤ 0xFFF) :
    (s.indexAfterBlock x).toNat ≤ 0xFFF := by
  rw [State.indexAfterBlock_toNat]
  split <;> omega

/-- `I` stays in range: `nnn` has 12 bits, the sums wrap modulo 4096, and a glyph's address is at most 1275 (R24). -/
theorem State.Inv.effect_index {i : Instr} {s : State} (h : s.Inv) (hw : wellFormed i = true) :
    (s.effect i).i.toNat ≤ 0xFFF := by
  cases i with
  | ldix nnn => exact Nat.le_of_lt_succ (of_decide_eq_true hw)
  | addix x =>
    show (indexPlus s.i (s.getV x)).toNat ≤ 0xFFF
    rw [indexPlus_toNat]
    omega
  | font x =>
    show (glyphAddress (s.getV x)).toNat ≤ 0xFFF
    have := (s.getV x).isLt
    rw [glyphAddress_toNat]
    omega
  | stm x | ldm x => exact State.indexAfterBlock_le x h.index
  | _ => exact h.index

/-- CALL pushes `pc + 2`, at most 0x1000 since it was fetched from at most 0xFFE; RET only lowers `SP` (R27). -/
theorem State.Inv.effect_returns {i : Instr} {s : State} (h : s.Inv) (hpc : s.pc.toNat ≤ 0xFFE) (k : Fin 16)
    (hk : k.val < (s.effect i).sp.val) : (s.effect i).stack[k].toNat ≤ 0x1000 := by
  cases i with
  | ret => exact h.returns k (Nat.lt_of_lt_of_le hk (Nat.sub_le _ _))
  | call nnn =>
    have hk' : k.val < min (s.sp.val + 1) 16 := hk
    show (s.stack.setIfInBounds s.sp.val (s.pc + 2))[k.val].toNat ≤ 0x1000
    rw [Vector.getElem_setIfInBounds]
    split
    · rw [BitVec.toNat_add]
      show (s.pc.toNat + 2) % 2 ^ 16 ≤ 0x1000
      omega
    · exact h.returns k (by omega)
  | _ => exact h.returns k hk

/-- The default next `PC` and the skip's, of an instruction that could be fetched. -/
theorem pc_add_le {p : Word} (hp : p.toNat ≤ 0xFFE) (n : Nat) (hn : n ≤ 4) :
    (p + BitVec.ofNat 16 n).toNat ≤ 0x10FE := by
  rw [BitVec.toNat_add, BitVec.toNat_ofNat]
  omega

theorem skip_le {p : Word} {c : Prop} [Decidable c] (hp : p.toNat ≤ 0xFFE) :
    (if c then p + 4 else p + 2).toNat ≤ 0x10FE := by
  split
  · exact pc_add_le hp 4 (by omega)
  · exact pc_add_le hp 2 (by omega)

/-- The highest next `PC` is JPV0's, 0xFFF + 0xFF (R27). -/
theorem State.Inv.nextPc_le {i : Instr} {s : State} (h : s.Inv) (hpc : s.pc.toNat ≤ 0xFFE)
    (hw : wellFormed i = true) (hf : faultOf i s = none) : (nextPc i s).toNat ≤ 0x10FE := by
  cases i with
  | jp nnn | call nnn =>
    have hn : nnn.toNat < 4096 := of_decide_eq_true hw
    show nnn.toNat ≤ 0x10FE
    omega
  | jpv0 nnn =>
    have hn : nnn.toNat < 4096 := of_decide_eq_true hw
    have := (s.getV 0).isLt
    simp only [nextPc, BitVec.toNat_add, BitVec.toNat_setWidth]
    omega
  | ret =>
    have hsp := faultOf_ret_eq_none.1 hf
    rw [nextPc_ret]
    exact Nat.le_trans (h.returns ⟨s.sp.val - 1, by omega⟩ (Nat.sub_one_lt hsp)) (by decide)
  | sei x kk | snei x kk | se x y | sne x y | skp x | sknp x => exact skip_le hpc
  | wkey x =>
    show (if ∃ k : Key, s.key[k] = true then s.pc + 2 else s.pc).toNat ≤ 0x10FE
    split
    · exact pc_add_le hpc 2 (by omega)
    · omega
  | _ => exact pc_add_le hpc 2 (by omega)

/-! ### The steps of the machine and the invariant -/

/-- Fault entry keeps the invariant: only `FAULT` changes, and its record is then not empty. -/
theorem State.Inv.latchFault {s : State} (h : s.Inv) (k : Fault) (a op : Word) : (s.latchFault k a op).Inv := by
  unfold State.latchFault
  split
  · exact ⟨h.memory, h.index, h.counter, h.returns, nofun, h.awaiting⟩
  · exact h

/-- Blocking on a WKEY that was fetched keeps the invariant. -/
theorem State.Inv.block {s : State} (h : s.Inv) {op : Word} {x : Reg} (hop : s.fetch = some op)
    (hd : decodeWord op = .ok (.wkey x)) : State.Inv { s with await := true, started := true } :=
  ⟨h.memory, h.index, h.counter, h.returns, h.noFault, fun _ => ⟨rfl, op, x, hop, hd⟩⟩

/-- The commit of an effect keeps the invariant. -/
theorem State.Inv.commit_effect {i : Instr} {s : State} (h : s.Inv) (hpc : s.pc.toNat ≤ 0xFFE)
    (hw : wellFormed i = true) (hf : faultOf i s = none) : ((s.effect i).commit (nextPc i s)).Inv where
  memory   := by simpa using h.effect_memory hf
  index    := h.effect_index hw
  counter  := h.nextPc_le hpc hw hf
  returns  := h.effect_returns hpc
  noFault  := by simpa using h.noFault
  awaiting := fun e => by cases e

/-- Executing the instruction fetched at `PC` keeps the invariant. -/
theorem State.Inv.of_exec {op : Word} {i : Instr} {s t : State} (h : s.Inv) (hop : s.fetch = some op)
    (hd : decodeWord op = .ok i) (he : exec i s = .next t) : t.Inv := by
  obtain ⟨k, -, hs⟩ | ⟨-, ⟨⟨x, rfl⟩, -⟩, hs⟩ | ⟨hf, -, hs⟩ := exec_outcome i s
  · cases hs.symm.trans he
    exact h.latchFault k s.pc (encode i)
  · cases hs.symm.trans he
    exact h.block hop hd
  · cases hs.symm.trans he
    exact h.commit_effect (State.fetch_eq_some.1 hop).1 (wellFormed_of_decodeWord hd) hf

/-- Settles O57: a `STEP` stays, enters a fault, or executes the fetched instruction. -/
theorem stepKeepsTheInvariant : Obligations.StepKeepsTheInvariant := by
  intro s t h ht
  obtain ⟨-, hs⟩ | ⟨-, -, hs⟩ | ⟨-, op, _, -, -, hs⟩ | ⟨-, op, i, hop, hd, hs⟩ := step_cases s
  · cases hs.symm.trans ht
    exact h
  · cases hs.symm.trans ht
    exact h.latchFault _ _ _
  · cases hs.symm.trans ht
    exact h.latchFault _ _ _
  · exact h.of_exec hop hd (hs.symm.trans ht)

/-! ### The other operations and histories -/

/-- `LOAD` writes only before the first `STEP`, when `AWAIT` is 0, and only inside memory. -/
theorem State.Inv.of_doLoad {bytes : List Byte} {s t : State} {r : Response} (h : s.Inv)
    (he : doLoad bytes s = .next (t, r)) : t.Inv := by
  unfold doLoad at he
  split at he
  · cases he
  · next hlate =>
    obtain ⟨hstart, -⟩ : s.started = false ∧ s.halted = false := by simpa using hlate
    split at he
    · cases he
      exact h.latchFault .programTooLarge s.pc 0
    · next hlen =>
      cases he
      refine ⟨Memory.wf_writeList bytes h.memory ?_, h.index, h.counter, h.returns, h.noFault, fun hw => ?_⟩
      · simp only [maxProgram, memSize, progBase] at hlen ⊢
        omega
      · cases hstart.symm.trans (h.awaiting hw).1

theorem State.Inv.doTick {s : State} (h : s.Inv) : s.doTick.Inv :=
  ⟨h.memory, h.index, h.counter, h.returns, h.noFault, h.awaiting⟩

theorem State.Inv.doKeyWrite {s : State} (h : s.Inv) (k : Nat) (pressed : Bool) : (doKeyWrite k pressed s).1.Inv := by
  unfold Machine.doKeyWrite
  split
  · exact ⟨h.memory, h.index, h.counter, h.returns, h.noFault, h.awaiting⟩
  · exact h.latchFault .invalidKeyIndex s.pc 0

theorem State.Inv.doKeyRead {s : State} (h : s.Inv) (k : Nat) : (doKeyRead k s).1.Inv := by
  unfold Machine.doKeyRead
  split
  · exact h
  · exact h.latchFault .invalidKeyIndex s.pc 0

/-- The invariant of the state in an operation's result is that of the next state it is said to give. -/
theorem inv_of_next_eq {p : State × Response} {t : State} {r : Response} (hp : p.1.Inv)
    (h : (.next p : Host.Outcome (State × Response) Fault Refusal) = .next (t, r)) : t.Inv := by
  cases h
  exact hp

theorem State.Inv.of_operate {o : Operation} {s t : State} {r : Response} (h : s.Inv)
    (he : operate o s = .next (t, r)) : t.Inv := by
  cases o with
  | reset => exact inv_of_next_eq s.doReset_inv he
  | load bytes => exact h.of_doLoad he
  | step => exact stepKeepsTheInvariant s t h (step_of_operate_step he).1
  | tick => exact inv_of_next_eq h.doTick he
  | keySet k => exact inv_of_next_eq (h.doKeyWrite k true) he
  | keyClear k => exact inv_of_next_eq (h.doKeyWrite k false) he
  | keyRead k => exact inv_of_next_eq (h.doKeyRead k) he
  | fbRead => exact inv_of_next_eq h he

/-- A history that gives a next state is its first operation and then the rest. -/
theorem runOps_cons_next {o : Operation} {ops : List Operation} {s t : State} {rs : List Response}
    (h : runOps (o :: ops) s = .next (t, rs)) :
    ∃ u r rs', operate o s = .next (u, r) ∧ runOps ops u = .next (t, rs') ∧ rs = r :: rs' := by
  unfold runOps at h
  split at h
  · cases h
  · cases h
  · next u r hu =>
    split at h
    · next v rs' hv =>
      cases h
      exact ⟨u, r, rs', hu, hv, rfl⟩
    · cases h
    · cases h

/-- What every operation keeps, every history keeps. -/
theorem runOps_keeps {P : State → Prop}
    (hP : ∀ (o : Operation) (s t : State) (r : Response), P s → operate o s = .next (t, r) → P t)
    {ops : List Operation} {s t : State} {rs : List Response} (hs : P s) (h : runOps ops s = .next (t, rs)) : P t := by
  induction ops generalizing s rs with
  | nil => cases h; exact hs
  | cons o ops ih =>
    obtain ⟨u, r, rs', hu, ht, -⟩ := runOps_cons_next h
    exact ih (hP o s u r hs hu) ht

/-- Settles O58, by induction on the history. -/
theorem historiesKeepTheInvariant : Obligations.HistoriesKeepTheInvariant := by
  intro ops s t rs h hr
  exact runOps_keeps (fun _ _ _ _ hs he => hs.of_operate he) h hr

end Sys2Proof.Machine

namespace Sys2Proof.Machine

/-! ### A store over the next instruction (20_memory.md R59, R66) -/

/-- Each register of a stored block reads back at its place in it. -/
theorem State.readByte_storeBytes_regsUpTo (s : State) (a : Nat) {x r : Reg} (h : r.val ≤ x.val) :
    (s.storeBytes a (s.regsUpTo x)).readByte (a + r.val) = s.getV r := by
  rw [State.readByte_storeBytes_inside s a r.val _ (by rw [State.length_regsUpTo]; omega), State.getElem_regsUpTo]
  rfl

/-- Settles O33: the STM leaves `V0` and `V1` where the next fetch reads. -/
theorem storeIsSeenByTheNextFetch : Obligations.StoreIsSeenByTheNextFetch := by
  intro s x i hrun hi hx hfits hd
  have hpc : (s.pc + 2).toNat = s.i.toNat := by bv_omega
  have h0 := s.readByte_storeBytes_regsUpTo s.i.toNat (x := x) (r := 0) (Nat.zero_le _)
  have h1 := s.readByte_storeBytes_regsUpTo s.i.toNat (x := x) (r := 1) hx
  refine ⟨_, exec_stm_ok x hfits, step_executes (halted_eq_false.2 hrun) (State.fetch_eq_some.2 ⟨?_, ?_⟩) hd⟩
  · rw [State.commit_pc]
    omega
  · rw [State.commit_pc, hpc]
    exact (congrArg₂ wordOfBytes h0 h1).symm

/-! ### The canonical form of memory is canonical (20_memory.md R51, R59) -/

/-- In a memory with rising addresses a listed byte is what its address reads as. -/
theorem Memory.read_of_mem {font : Font} {m : Memory} {c : Host.Cell}
    (hm : m.Pairwise (fun p q => p.1 < q.1)) (hc : c ∈ m) : Memory.read font m c.1 = c.2 := by
  induction m with
  | nil => cases hc
  | cons d m ih =>
    obtain ⟨hlt, hm⟩ := List.pairwise_cons.1 hm
    rcases List.mem_cons.1 hc with rfl | hc
    · exact if_pos rfl
    · exact (if_neg (hlt c hc).ne').trans (ih hm hc)

/-- What an address reads as is listed there, or is the background. -/
theorem Memory.mem_or_read_eq_background {font : Font} (m : Memory) (a : Nat) :
    (a, Memory.read font m a) ∈ m ∨ Memory.read font m a = background font a := by
  induction m with
  | nil => exact .inr rfl
  | cons d m ih =>
    rw [Memory.read]
    split
    · next h => exact .inl (h ▸ List.mem_cons_self)
    · exact ih.imp_left (List.mem_cons_of_mem d)

/-- A memory in canonical form lists exactly the bytes that read differently from the background. -/
theorem Memory.mem_iff_read {font : Font} {m : Memory} (h : Memory.wf font m) (c : Host.Cell) :
    c ∈ m ↔ Memory.read font m c.1 = c.2 ∧ c.2 ≠ background font c.1 := by
  constructor
  · intro hc
    exact ⟨Memory.read_of_mem h.1 hc, (h.2 c hc).2⟩
  · rintro ⟨hr, hb⟩
    rcases Memory.mem_or_read_eq_background m c.1 with hc | hc
    · rwa [hr] at hc
    · exact absurd (hr.symm.trans hc) hb

/-- Settles O34: both list the same bytes, in the one order of rising addresses. -/
theorem memoriesThatReadAlikeAreEqual : Obligations.MemoriesThatReadAlikeAreEqual := by
  intro font m n hm hn hread
  have hmem (c : Host.Cell) : c ∈ m ↔ c ∈ n := by rw [Memory.mem_iff_read hm, Memory.mem_iff_read hn, hread]
  have hnodup {l : Memory} (hl : Memory.wf font l) : l.Nodup :=
    hl.1.imp fun hlt e => absurd (congrArg Prod.fst e) hlt.ne
  exact List.Perm.eq_of_pairwise (fun p q _ _ hpq hqp => absurd hpq hqp.asymm) hm.1 hn.1
    ((List.perm_ext_iff_of_nodup (hnodup hm) (hnodup hn)).2 hmem)

/-! ### After a STEP the run has begun or has ended (20_memory.md R68, 60_exceptions.md R221) -/

@[simp] theorem State.halted_latchFault (s : State) (k : Fault) (a op : Word) : (s.latchFault k a op).halted = true := by
  by_cases h : s.fault.kind = none
  · rw [s.latchFault_first k a op h]
    rfl
  · rw [s.latchFault_later k a op h]
    exact Option.isSome_iff_ne_none.2 h

theorem exec_starts_or_halts {i : Instr} {s t : State} (h : exec i s = .next t) :
    t.started = true ∨ t.halted = true := by
  obtain ⟨k, -, he⟩ | ⟨-, -, he⟩ | ⟨-, -, he⟩ := exec_outcome i s
  · cases he.symm.trans h
    exact .inr (s.halted_latchFault k s.pc (encode i))
  · cases he.symm.trans h
    exact .inl rfl
  · cases he.symm.trans h
    exact .inl (State.commit_started _ _)

theorem step_starts_or_halts {s t : State} (h : step s = .next t) : t.started = true ∨ t.halted = true := by
  obtain ⟨hh, hs⟩ | ⟨-, -, hs⟩ | ⟨-, op, _, -, -, hs⟩ | ⟨-, op, i, -, -, hs⟩ := step_cases s
  · cases hs.symm.trans h
    exact .inr hh
  · cases hs.symm.trans h
    exact .inr (s.halted_latchFault .addressOutOfRange s.pc 0)
  · cases hs.symm.trans h
    exact .inr (s.halted_latchFault .decodeError s.pc op)
  · exact exec_starts_or_halts (hs.symm.trans h)

theorem doLoad_refused {s : State} (bytes : List Byte) (h : s.started = true ∨ s.halted = true) :
    doLoad bytes s = .refused .lateLoad :=
  if_pos (by simpa using h)

/-- Settles O53: the run has begun, or the machine is halted, and either refuses `LOAD`. -/
theorem lateLoadIsRefused : Obligations.LateLoadIsRefused := by
  intro s t r bytes h
  exact doLoad_refused bytes (step_starts_or_halts (step_of_operate_step h).1)

/-! ### The fetched word (20_memory.md R54; 40_step_and_control.md R92) -/

theorem bits_15_8_wordOfBytes (hi lo : Byte) : bits (wordOfBytes hi lo) 15 8 = hi.toNat := by
  have := hi.isLt
  have := lo.isLt
  simp only [bits, wordOfBytes, BitVec.toNat_ofNat]
  omega

theorem bits_7_0_wordOfBytes (hi lo : Byte) : bits (wordOfBytes hi lo) 7 0 = lo.toNat := by
  have := hi.isLt
  have := lo.isLt
  simp only [bits, wordOfBytes, BitVec.toNat_ofNat]
  omega

/-- An operation `STEP` of a running machine that enters a fault answers that fault. -/
theorem operate_step_of_raise {s : State} {k : Fault} {op : Word} (hrun : s.fault.kind = none)
    (h : step s = raise k op s) : operate .step s = .next (s.faulted k op, .fault k) := by
  have hs : step s = .next (s.faulted k op) := h.trans (raise_faulted k op hrun)
  have hr : stepResponse s (s.faulted k op) = .fault k := by simp [stepResponse, halted_eq_false.2 hrun, State.faulted]
  simp only [operate, hs, hr]

/-- Settles O8: the fetch's own condition splits `PC` at 0xFFE. -/
theorem fetchReadsTwoBytesOrFaults : Obligations.FetchReadsTwoBytesOrFaults := by
  intro s
  constructor
  · intro hpc
    exact ⟨_, State.fetch_eq_some.2 ⟨hpc, rfl⟩, bits_15_8_wordOfBytes _ _, bits_7_0_wordOfBytes _ _⟩
  · intro hpc hrun
    exact operate_step_of_raise hrun (step_fetch_fault (halted_eq_false.2 hrun) (State.fetch_eq_none.2 hpc))

end Sys2Proof.Machine

namespace Sys2Proof.Machine

/-! ### A row's fixed bits as fields of the word (30_encoding.md R73) -/

theorem bits_and (v m : Word) (hi lo : Nat) : bits (v &&& m) hi lo = bits v hi lo &&& bits m hi lo := by
  simp only [bits, BitVec.toNat_and, Nat.and_div_two_pow, Nat.and_mod_two_pow]

/-- A masked word has the word's own field wherever every bit of the field is under the mask. -/
theorem bits_of_and_eq {op mask value : Word} {hi lo : Nat} (h : op &&& mask = value)
    (hm : bits mask hi lo = 2 ^ (hi - lo + 1) - 1) : bits op hi lo = bits value hi lo := by
  rw [← h, bits_and, hm, Nat.and_two_pow_sub_one_eq_mod, Nat.mod_eq_of_lt (bits_lt op hi lo)]

theorem eq_of_and_FFFF_eq {op value : Word} (h : op &&& 0xFFFF#16 = value) : op = value :=
  (BitVec.and_allOnes (x := op)).symm.trans h

/-! ### The word that a format builds from a word's own fields (30_encoding.md R71) -/

theorem encodeA_fieldNNN {op : Word} {opc : Nat} (h : bits op 15 12 = opc) : encodeA opc (fieldNNN op) = op := by
  apply BitVec.eq_of_toNat_eq
  simp only [encodeA, fieldNNN, ← h, bits, BitVec.toNat_ofNat]
  omega

theorem encodeXK_fields {op : Word} {opc : Nat} (h : bits op 15 12 = opc) :
    encodeXK opc (fieldX op) (fieldKK op) = op := by
  apply BitVec.eq_of_toNat_eq
  simp only [encodeXK, fieldX, fieldKK, ← h, bits, BitVec.toNat_ofNat, Fin.val_ofNat]
  omega

theorem encodeXY_fields {op : Word} {opc low : Nat} (h : bits op 15 12 = opc) (hl : bits op 3 0 = low) :
    encodeXY opc (fieldX op) (fieldY op) low = op := by
  apply BitVec.eq_of_toNat_eq
  simp only [encodeXY, fieldX, fieldY, ← h, ← hl, bits, BitVec.toNat_ofNat, Fin.val_ofNat]
  omega

theorem encodeX_fieldX {op : Word} {opc low : Nat} (h : bits op 15 12 = opc) (hl : bits op 7 0 = low) :
    encodeX opc (fieldX op) low = op := by
  apply BitVec.eq_of_toNat_eq
  simp only [encodeX, fieldX, ← h, ← hl, bits, BitVec.toNat_ofNat, Fin.val_ofNat]
  omega

/-! ### The fields of the word that a format builds (30_encoding.md R71, R72) -/

theorem fieldNNN_encodeA (opc : Nat) {nnn : Word} (h : addressFits nnn = true) : fieldNNN (encodeA opc nnn) = nnn := by
  have : nnn.toNat < 4096 := of_decide_eq_true h
  apply BitVec.eq_of_toNat_eq
  simp only [encodeA, fieldNNN, bits, BitVec.toNat_ofNat]
  omega

@[simp] theorem fieldX_encodeXK (opc : Nat) (x : Reg) (kk : Byte) : fieldX (encodeXK opc x kk) = x := by
  have := kk.isLt
  apply Fin.ext
  simp only [encodeXK, fieldX, bits, BitVec.toNat_ofNat, Fin.val_ofNat]
  omega

@[simp] theorem fieldKK_encodeXK (opc : Nat) (x : Reg) (kk : Byte) : fieldKK (encodeXK opc x kk) = kk := by
  apply BitVec.eq_of_toNat_eq
  simp only [encodeXK, fieldKK, bits, BitVec.toNat_ofNat]
  omega

theorem fieldX_encodeXY (opc : Nat) (x y : Reg) {low : Nat} (h : low < 16) : fieldX (encodeXY opc x y low) = x := by
  apply Fin.ext
  simp only [encodeXY, fieldX, bits, BitVec.toNat_ofNat, Fin.val_ofNat]
  omega

theorem fieldY_encodeXY (opc : Nat) (x y : Reg) {low : Nat} (h : low < 16) : fieldY (encodeXY opc x y low) = y := by
  apply Fin.ext
  simp only [encodeXY, fieldY, bits, BitVec.toNat_ofNat, Fin.val_ofNat]
  omega

theorem fieldN_encodeXY (opc : Nat) (x y : Reg) {low : Nat} (h : low < 16) : fieldN (encodeXY opc x y low) = low := by
  simp only [encodeXY, fieldN, bits, BitVec.toNat_ofNat]
  omega

theorem fieldX_encodeX (opc : Nat) (x : Reg) {low : Nat} (h : low < 256) : fieldX (encodeX opc x low) = x := by
  apply Fin.ext
  simp only [encodeX, fieldX, bits, BitVec.toNat_ofNat, Fin.val_ofNat]
  omega

/-! ### The instruction of a row with the operands of a word -/

/-- The instruction of `i`'s row of the opcode map whose operands are the fields of `op` (00_scope.md R11). -/
def withFieldsOf (op : Word) : Instr → Instr
  | .cls       => .cls
  | .ret       => .ret
  | .jp _      => .jp (fieldNNN op)
  | .call _    => .call (fieldNNN op)
  | .sei _ _   => .sei (fieldX op) (fieldKK op)
  | .snei _ _  => .snei (fieldX op) (fieldKK op)
  | .se _ _    => .se (fieldX op) (fieldY op)
  | .ldi _ _   => .ldi (fieldX op) (fieldKK op)
  | .addi _ _  => .addi (fieldX op) (fieldKK op)
  | .ld _ _    => .ld (fieldX op) (fieldY op)
  | .or _ _    => .or (fieldX op) (fieldY op)
  | .and _ _   => .and (fieldX op) (fieldY op)
  | .xor _ _   => .xor (fieldX op) (fieldY op)
  | .add _ _   => .add (fieldX op) (fieldY op)
  | .sub _ _   => .sub (fieldX op) (fieldY op)
  | .shr _ _   => .shr (fieldX op) (fieldY op)
  | .subn _ _  => .subn (fieldX op) (fieldY op)
  | .shl _ _   => .shl (fieldX op) (fieldY op)
  | .sne _ _   => .sne (fieldX op) (fieldY op)
  | .ldix _    => .ldix (fieldNNN op)
  | .jpv0 _    => .jpv0 (fieldNNN op)
  | .rnd _ _   => .rnd (fieldX op) (fieldKK op)
  | .drw _ _ _ => .drw (fieldX op) (fieldY op) (fieldN op)
  | .skp _     => .skp (fieldX op)
  | .sknp _    => .sknp (fieldX op)
  | .lddt _    => .lddt (fieldX op)
  | .wkey _    => .wkey (fieldX op)
  | .stdt _    => .stdt (fieldX op)
  | .stst _    => .stst (fieldX op)
  | .addix _   => .addix (fieldX op)
  | .font _    => .font (fieldX op)
  | .bcd _     => .bcd (fieldX op)
  | .stm _     => .stm (fieldX op)
  | .ldm _     => .ldm (fieldX op)

@[simp] theorem opcodeRow_withFieldsOf (op : Word) (i : Instr) : opcodeRow (withFieldsOf op i) = opcodeRow i := by
  cases i <;> rfl

/-- The operands of a well-formed instruction are the fields of its word. -/
theorem withFieldsOf_encode {i : Instr} (hw : wellFormed i = true) : withFieldsOf (encode i) i = i := by
  cases i with
  | cls | ret => rfl
  | jp nnn | call nnn | ldix nnn | jpv0 nnn => simp only [withFieldsOf, encode, fieldNNN_encodeA _ hw]
  | drw x y n =>
    have hn : n < 16 := of_decide_eq_true hw
    simp only [withFieldsOf, encode, fieldX_encodeXY _ x y hn, fieldY_encodeXY _ x y hn, fieldN_encodeXY _ x y hn]
  | sei x kk | snei x kk | ldi x kk | addi x kk | rnd x kk =>
    simp only [withFieldsOf, encode, fieldX_encodeXK, fieldKK_encodeXK]
  | se x y | ld x y | or x y | and x y | xor x y | add x y | sub x y | shr x y | subn x y | shl x y | sne x y =>
    simp (disch := decide) only [withFieldsOf, encode, fieldX_encodeXY, fieldY_encodeXY]
  | skp x | sknp x | lddt x | wkey x | stdt x | stst x | addix x | font x | bcd x | stm x | ldm x =>
    simp (disch := decide) only [withFieldsOf, encode, fieldX_encodeX]

/-! ### The decoder, row by row of the opcode map (30_encoding.md R73, R74) -/

theorem decodeWord_of_high_8 {op : Word} (h : bits op 15 12 = 0x8) : decodeWord op = decode8 op := by
  rw [decodeWord, h]
  rfl

theorem decodeWord_of_high_E {op : Word} (h : bits op 15 12 = 0xE) : decodeWord op = decodeE op := by
  rw [decodeWord, h]
  rfl

theorem decodeWord_of_high_F {op : Word} (h : bits op 15 12 = 0xF) : decodeWord op = decodeF op := by
  rw [decodeWord, h]
  rfl

/-- A word with the fixed bits of a row decodes to the instruction of that row with the word's fields as operands. -/
theorem decodeWord_of_row {op : Word} {i : Instr} (h : op &&& (opcodeRow i).mask = (opcodeRow i).value) :
    decodeWord op = .ok (withFieldsOf op i) := by
  cases i with
  | cls | ret =>
    cases eq_of_and_FFFF_eq h
    rfl
  | jp _ | call _ | sei _ _ | snei _ _ | ldi _ _ | addi _ _ | ldix _ | jpv0 _ | rnd _ _ | drw _ _ _ =>
    dsimp only [opcodeRow] at h
    rw [decodeWord, bits_of_and_eq (hi := 15) (lo := 12) h rfl]
    rfl
  | se _ _ | sne _ _ =>
    dsimp only [opcodeRow] at h
    rw [decodeWord, bits_of_and_eq (hi := 15) (lo := 12) h rfl]
    exact if_pos (bits_of_and_eq (hi := 3) (lo := 0) h rfl)
  | ld _ _ | or _ _ | and _ _ | xor _ _ | add _ _ | sub _ _ | shr _ _ | subn _ _ | shl _ _ =>
    dsimp only [opcodeRow] at h
    rw [decodeWord_of_high_8 (bits_of_and_eq h rfl), decode8, bits_of_and_eq (hi := 3) (lo := 0) h rfl]
    rfl
  | skp _ | sknp _ =>
    dsimp only [opcodeRow] at h
    rw [decodeWord_of_high_E (bits_of_and_eq h rfl), decodeE, bits_of_and_eq (hi := 7) (lo := 0) h rfl]
    rfl
  | lddt _ | wkey _ | stdt _ | stst _ | addix _ | font _ | bcd _ | stm _ | ldm _ =>
    dsimp only [opcodeRow] at h
    rw [decodeWord_of_high_F (bits_of_and_eq h rfl), decodeF, bits_of_and_eq (hi := 7) (lo := 0) h rfl]
    rfl

/-- The word of a well-formed instruction has the fixed bits of the instruction's row. -/
theorem encode_fixedBits {i : Instr} (hw : wellFormed i = true) :
    encode i &&& (opcodeRow i).mask = (opcodeRow i).value := by
  cases i with
  | cls | ret => rfl
  | jp nnn | call nnn | ldix nnn | jpv0 nnn => exact encodeA_fixed _ nnn (of_decide_eq_true hw)
  | drw x y n => exact encodeXYN_fixed _ x y n (of_decide_eq_true hw)
  | sei x kk | snei x kk | ldi x kk | addi x kk | rnd x kk => exact encodeXK_fixed _ x kk
  | se x y | ld x y | or x y | and x y | xor x y | add x y | sub x y | shr x y | subn x y | shl x y | sne x y =>
    exact encodeXY_fixed _ x y _ (by decide)
  | skp x | sknp x | lddt x | wkey x | stdt x | stst x | addix x | font x | bcd x | stm x | ldm x =>
    exact encodeX_fixed _ x _ (by decide)

/-! ### The decoder and the encoder (30_encoding.md R70 to R75) -/

theorem decodeWord_encode {i : Instr} (hw : wellFormed i = true) : decodeWord (encode i) = .ok i := by
  rw [decodeWord_of_row (encode_fixedBits hw), withFieldsOf_encode hw]

/-- Settles O2: an instruction's word has the fixed bits of its row, and its fields are the operands. -/
theorem decodeOfEncodeIsTheInstruction : Obligations.DecodeOfEncodeIsTheInstruction := by
  intro i hw
  have hi := decodeWord_encode hw
  refine ⟨hi, ?_⟩
  rw [encodeBytes, decode_bytes, hi]

theorem encode_of_decode8 {op : Word} {i : Instr} (hop : bits op 15 12 = 0x8) (h : decode8 op = .ok i) :
    encode i = op := by
  unfold decode8 at h
  split at h <;> cases h <;> exact encodeXY_fields hop ‹_›

theorem encode_of_decodeE {op : Word} {i : Instr} (hop : bits op 15 12 = 0xE) (h : decodeE op = .ok i) :
    encode i = op := by
  unfold decodeE at h
  split at h <;> cases h <;> exact encodeX_fieldX hop ‹_›

theorem encode_of_decodeF {op : Word} {i : Instr} (hop : bits op 15 12 = 0xF) (h : decodeF op = .ok i) :
    encode i = op := by
  unfold decodeF at h
  split at h <;> cases h <;> exact encodeX_fieldX hop ‹_›

theorem encode_of_decodeWord {op : Word} {i : Instr} (h : decodeWord op = .ok i) : encode i = op := by
  unfold decodeWord at h
  split at h -- case `h_k` is high nibble `k - 1`
  case h_1 =>
    split at h
    · next hop => cases h; exact hop.symm
    · split at h <;> cases h
      next hop => exact hop.symm
  case h_2 hop | h_3 hop | h_11 hop | h_12 hop => cases h; exact encodeA_fieldNNN hop
  case h_4 hop | h_5 hop | h_7 hop | h_8 hop | h_13 hop => cases h; exact encodeXK_fields hop
  case h_6 hop | h_10 hop =>
    split at h <;> cases h
    next hlow => exact encodeXY_fields hop hlow
  case h_9 hop => exact encode_of_decode8 hop h
  case h_14 hop => cases h; exact encodeXY_fields hop rfl
  case h_15 hop => exact encode_of_decodeE hop h
  case h_16 =>
    have hlt := bits_lt op 15 12
    have hop : bits op 15 12 = 0xF := by grind
    exact encode_of_decodeF hop h

/-- Settles O3: each branch of the decoder takes the operands from the bits its format puts them in. -/
theorem encodeOfDecodeIsTheWord : Obligations.EncodeOfDecodeIsTheWord := by
  intro op i h
  exact ⟨wellFormed_of_decodeWord h, encode_of_decodeWord h⟩

/-- A word has the fixed bits of every row it decodes to an instruction of. -/
theorem row_of_decodeWord {op : Word} {i : Instr} (h : decodeWord op = .ok i) :
    op &&& (opcodeRow i).mask = (opcodeRow i).value := by
  have hfixed := encode_fixedBits (wellFormed_of_decodeWord h)
  rwa [encode_of_decodeWord h] at hfixed

/-- Settles O4: a word with a row's fixed bits decodes to that row, and what it decodes to is re-encoded as the word. -/
theorem decodeFollowsTheOpcodeMap : Obligations.DecodeFollowsTheOpcodeMap := by
  refine ⟨rfl, by decide, fun op row hrow => ⟨fun h => ?_, ?_⟩⟩
  · obtain ⟨i, -, rfl⟩ := List.mem_map.1 hrow
    exact ⟨withFieldsOf op i, decodeWord_of_row h, opcodeRow_withFieldsOf op i⟩
  · rintro ⟨i, hi, rfl⟩
    exact row_of_decodeWord hi

/-- Settles O1: `decodeWord` evaluated on each of the fourteen words. -/
theorem writtenWordsDecode : Obligations.WrittenWordsDecode := by
  unfold Obligations.WrittenWordsDecode
  decide

end Sys2Proof.Machine

namespace Sys2Proof.Machine

/-! ### Every execution and every step has a next state (40_step_and_control.md R90, R95) -/

theorem exec_answers_next (i : Instr) (s : State) : ∃ t, exec i s = .next t := by
  obtain ⟨k, -, he⟩ | ⟨-, -, he⟩ | ⟨-, -, he⟩ := exec_outcome i s
  · exact ⟨_, he⟩
  · exact ⟨_, he⟩
  · exact ⟨_, he⟩

theorem step_answers_next (s : State) : ∃ t, step s = .next t := by
  obtain ⟨-, hs⟩ | ⟨-, -, hs⟩ | ⟨-, op, _, -, -, hs⟩ | ⟨-, op, i, -, -, hs⟩ := step_cases s
  · exact ⟨s, hs⟩
  · exact ⟨_, hs⟩
  · exact ⟨_, hs⟩
  · obtain ⟨t, ht⟩ := exec_answers_next i s
    exact ⟨t, hs.trans ht⟩

/-- Settles O12, by the ways an execution can go and the phases of a step. -/
theorem everyInstructionAnswersANextState : Obligations.EveryInstructionAnswersANextState :=
  ⟨exec_answers_next, step_answers_next⟩

/-! ### The outcomes of a STEP (40_step_and_control.md R90, R95) -/

/-- The next `STEP` of a running machine blocks: a WKEY is fetched and no key is pressed (44_keys_timers.md R195). -/
def State.awaitsKey (s : State) : Prop :=
  (∃ op x, s.fetch = some op ∧ decodeWord op = .ok (.wkey x)) ∧ ∀ k : Key, s.key[k] = false

theorem State.awaitsKey_iff_blocksOn {s : State} {op : Word} {i : Instr} (hop : s.fetch = some op)
    (hd : decodeWord op = .ok i) : s.awaitsKey ↔ s.blocksOn i := by
  simp [State.awaitsKey, State.blocksOn, hop, hd]

theorem State.not_awaitsKey_of_fetch_none {s : State} (h : s.fetch = none) : ¬ s.awaitsKey := by
  simp [State.awaitsKey, h]

theorem State.not_awaitsKey_of_decode_error {s : State} {op : Word} {r : DecodeReject} (hop : s.fetch = some op)
    (hd : decodeWord op = .error r) : ¬ s.awaitsKey := by
  simp [State.awaitsKey, hop, hd]

/-- WKEY never faults. -/
theorem State.not_blocksOn_of_faultOf {s : State} {i : Instr} {k : Fault} (h : faultOf i s = some k) :
    ¬ s.blocksOn i := by
  rintro ⟨⟨x, rfl⟩, -⟩
  cases h

theorem raise_running (k : Fault) (op : Word) {s : State} (h : s.halted = false) :
    raise k op s = .next (s.faulted k op) := raise_faulted k op (halted_eq_false.1 h)

/-- The four outcomes of a `STEP`, each with its next state: the machine is halted; a fault is entered; the machine
blocks; or an instruction is committed. -/
theorem step_outcome (s : State) :
    (s.halted = true ∧ step s = .next s) ∨
    (s.halted = false ∧ ¬ s.awaitsKey ∧ ∃ k op, step s = .next (s.faulted k op)) ∨
    (s.halted = false ∧ s.awaitsKey ∧ step s = .next { s with await := true, started := true }) ∨
    (s.halted = false ∧ ¬ s.awaitsKey ∧
      ∃ (u : State) (p : Word), u.fault = s.fault ∧ step s = .next (u.commit p)) := by
  obtain hs | ⟨hh, hf, hs⟩ | ⟨hh, op, r, hop, hd, hs⟩ | ⟨hh, op, i, hop, hd, hs⟩ := step_cases s
  · exact .inl hs
  · exact .inr (.inl ⟨hh, State.not_awaitsKey_of_fetch_none hf, _, _, hs.trans (raise_running _ _ hh)⟩)
  · exact .inr (.inl ⟨hh, State.not_awaitsKey_of_decode_error hop hd, _, _, hs.trans (raise_running _ _ hh)⟩)
  · rw [hs, State.awaitsKey_iff_blocksOn hop hd]
    obtain ⟨k, hk, he⟩ | ⟨-, hb, he⟩ | ⟨-, hb, he⟩ := exec_outcome i s
    · exact .inr (.inl ⟨hh, State.not_blocksOn_of_faultOf hk, _, _, he.trans (raise_running _ _ hh)⟩)
    · exact .inr (.inr (.inl ⟨hh, hb, he⟩))
    · exact .inr (.inr (.inr ⟨hh, hb, _, _, s.effect_fault i, he⟩))

@[simp] theorem State.faulted_await (s : State) (k : Fault) (op : Word) : (s.faulted k op).await = s.await := rfl

@[simp] theorem State.faulted_pc (s : State) (k : Fault) (op : Word) : (s.faulted k op).pc = s.pc := rfl

theorem stepResponse_halted {s : State} (t : State) (h : s.halted = true) : stepResponse s t = .halted := by
  simp [stepResponse, h]

theorem stepResponse_faulted {s : State} (k : Fault) (op : Word) (h : s.halted = false) :
    stepResponse s (s.faulted k op) = .fault k := by
  simp [stepResponse, h, State.faulted]

theorem stepResponse_blocked {s : State} (h : s.halted = false) :
    stepResponse s { s with await := true, started := true } = .blocked := by
  simp [stepResponse, h, halted_eq_false.1 h]

theorem stepResponse_commit {s u : State} (p : Word) (h : s.halted = false) (hu : u.fault = s.fault) :
    stepResponse s (u.commit p) = .executed := by
  simp [stepResponse, h, hu, halted_eq_false.1 h]

theorem operate_step_of_next {s t : State} (h : step s = .next t) :
    operate .step s = .next (t, stepResponse s t) := by
  simp only [operate, h]

/-- Settles O13, by the four outcomes of a step and the answer each gives. -/
theorem outcomesOfAStep : Obligations.OutcomesOfAStep := by
  intro s t r h
  obtain ⟨ht, rfl⟩ := step_of_operate_step h
  change _ ∧ _ ∧ _ ∧ _ ∧ _ ∧ (_ ↔ s.fault.kind = none ∧ s.awaitsKey)
  rw [← halted_eq_false]
  obtain ⟨hh, hs⟩ | ⟨hh, hw, k, op, hs⟩ | ⟨hh, hw, hs⟩ | ⟨hh, hw, u, p, hu, hs⟩ := step_outcome s
  · cases hs.symm.trans ht
    rw [stepResponse_halted s hh]
    simp [hh]
  · cases hs.symm.trans ht
    rw [stepResponse_faulted k op hh]
    simp [hw]
  · cases hs.symm.trans ht
    rw [stepResponse_blocked hh]
    simp [hh, hw]
  · cases hs.symm.trans ht
    rw [stepResponse_commit p hh hu]
    simp [hw]

/-- Settles O7: a halted step stays in its state, and its answer says so. -/
theorem haltedStepDoesNothing : Obligations.HaltedStepDoesNothing := by
  intro s h
  have hh : s.halted = true := Option.isSome_iff_ne_none.2 h
  rw [operate_step_of_next (step_halted hh), stepResponse_halted s hh]

/-! ### The step decodes what stands at `PC` (40_step_and_control.md R92, R93) -/

/-- The decoder on two bytes reads the word they make. -/
theorem decodeWord_of_decode {hi lo : Byte} {i : Instr} {rest : List Byte} (h : decode [hi, lo] = .ok (i, rest)) :
    decodeWord (wordOfBytes hi lo) = .ok i := by
  simp only [decode] at h
  split at h
  · next hd => cases h; exact hd
  · cases h

theorem step_of_decode_readBytes {s : State} {i : Instr} {rest : List Byte} (hrun : s.fault.kind = none)
    (hpc : s.pc.toNat ≤ 0xFFE) (hd : decode (s.readBytes s.pc.toNat 2) = .ok (i, rest)) : step s = exec i s :=
  step_executes (halted_eq_false.2 hrun) (State.fetch_eq_some.2 ⟨hpc, rfl⟩) (decodeWord_of_decode hd)

/-- Settles O5: the fetch reads the two bytes that `decode` is given. -/
theorem stepExecutesTheDecodedInstruction : Obligations.StepExecutesTheDecodedInstruction := by
  intro s i rest hrun hpc hd
  exact step_of_decode_readBytes hrun hpc hd

/-- Bytes stored over a whole range read back as that list. -/
theorem State.readBytes_storeBytes (s : State) (a : Nat) (bs : List Byte) :
    (s.storeBytes a bs).readBytes a bs.length = bs :=
  List.ext_getElem (by simp) fun k _ hk => by
    rw [State.getElem_readBytes, State.readByte_storeBytes_inside s a k bs hk]

theorem State.withFetchWord_fault (s : State) (nbits w : Nat) : (s.withFetchWord nbits w).fault.kind = none := rfl

theorem State.withFetchWord_pc_le (s : State) (nbits w : Nat) : (s.withFetchWord nbits w).pc.toNat ≤ 0xFFE := by
  simp only [State.withFetchWord, State.storeBytes_pc]
  split
  · next h =>
    have := inRange_iff.1 h
    simp only [memSize] at this
    omega
  · decide

theorem State.readBytes_withFetchWord (s : State) (nbits w : Nat) :
    (s.withFetchWord nbits w).readBytes (s.withFetchWord nbits w).pc.toNat 2 = tableBytes nbits w :=
  State.readBytes_storeBytes _ _ (tableBytes nbits w)

theorem decode_tableBytes {nbits w : Nat} {i : Instr} (h : decodeTableWord nbits w = some i) :
    ∃ rest, decode (tableBytes nbits w) = .ok (i, rest) := by
  unfold decodeTableWord at h
  split at h
  · next j rest hd => cases h; exact ⟨rest, hd⟩
  · cases h

/-- Settles O6: the placed machine is running, and the bytes at its `PC` are the placed word's. -/
theorem placedWordRunsNext : Obligations.PlacedWordRunsNext := by
  intro s w i h
  obtain ⟨rest, hd⟩ := decode_tableBytes h
  refine step_of_decode_readBytes (rest := rest) (s.withFetchWord_fault 16 w) (s.withFetchWord_pc_le 16 w) ?_
  rw [State.readBytes_withFetchWord, hd]

/-! ### Jumps and skips (40_step_and_control.md R101, R103 to R107) -/

/-- Settles O17: JP is a bare commit of `nnn`. -/
theorem jumpGoesToItsTarget : Obligations.JumpGoesToItsTarget := by
  intro s nnn
  exact complete_spec s nnn

/-- A 12-bit address and a byte add up inside 16 bits. -/
theorem toNat_add_setWidth {nnn : Word} (b : Byte) (h : nnn.toNat < 4096) :
    (nnn + b.setWidth 16).toNat = nnn.toNat + b.toNat := by
  bv_omega

/-- Settles O18: the sum has no carry out of 16 bits. -/
theorem jumpPlusV0GoesToTheSum : Obligations.JumpPlusV0GoesToTheSum := by
  intro s nnn h
  obtain ⟨t, he, hx, hv, hk⟩ := complete_spec s (nnn + (s.getV 0).setWidth 16)
  have hpc : t.pc = nnn + (s.getV 0).setWidth 16 := hx.1
  exact ⟨t, he, hpc ▸ toNat_add_setWidth (s.getV 0) h, hpc ▸ hx, hv, hk⟩

/-- A skip whose condition is `c`, with its frame. -/
theorem skipIf_spec_of_iff {c : Bool} {p : Prop} [Decidable p] (s : State) (h : c = true ↔ p) :
    ∃ t, skipIf c s = .next t ∧ Executes s t (if p then s.pc + 4 else s.pc + 2) ∧ KeepsRegisters s t ∧
      KeepsAllButRegisters s t := by
  rw [skipIf_of_iff s h]
  exact complete_spec s _

/-- Settles O19: each is a skip on its own comparison. -/
theorem skipsMoveByFourOrTwo : Obligations.SkipsMoveByFourOrTwo := by
  intro s x y kk
  exact ⟨skipIf_spec_of_iff s beq_iff_eq, skipIf_spec_of_iff s bne_iff_ne, skipIf_spec_of_iff s beq_iff_eq,
    skipIf_spec_of_iff s bne_iff_ne⟩

/-! ### RET and CALL (40_step_and_control.md R100, R102) -/

theorem exec_ret_underflow {s : State} (h : s.sp.val = 0) (hrun : s.fault.kind = none) :
    exec .ret s = .next (s.faulted .stackUnderflow 0x00EE) := by
  rw [exec_ret_fault h, raise_faulted _ _ hrun]
  rfl

/-- Settles O15, by whether there is a live entry. -/
theorem returnPopsTheNewestEntry : Obligations.ReturnPopsTheNewestEntry := by
  intro s
  refine ⟨fun h => ?_, exec_ret_underflow⟩
  have hlt : s.sp.val - 1 < 16 := by omega
  refine ⟨_, s.stack[s.sp.val - 1], exec_ret_ok h, Vector.getElem?_eq_getElem hlt, ⟨rfl, rfl, rfl, rfl, rfl, rfl⟩,
    ?_, rfl, fun _ => rfl, rfl, ⟨rfl, rfl⟩, fun _ => rfl, rfl, rfl⟩
  exact Nat.sub_add_cancel (Nat.one_le_iff_ne_zero.2 h)

/-- Settles O16, by whether the stack has room. -/
theorem callPushesTheReturnAddress : Obligations.CallPushesTheReturnAddress := by
  intro s nnn
  constructor
  · intro h
    refine ⟨_, exec_call_ok nnn h, ⟨rfl, rfl, rfl, rfl, rfl, rfl⟩, rfl, ?_, fun k hk => ?_, fun _ => rfl, rfl,
      ⟨rfl, rfl⟩, fun _ => rfl, rfl, rfl⟩
    · simp [h]
    · exact Vector.getElem_set_ne h k.isLt hk.symm
  · intro h hrun
    rw [exec_call_fault nnn h, raise_faulted _ _ hrun]

/-! ### Nested calls and returns (40_step_and_control.md R108) -/

/-- What CALLs at the sites of `cs` make of the stack: the entries live before stay, and above them stand the return
addresses in the order of the calls. -/
structure PushesReturns (cs : List (Word × Word)) (s t : State) : Prop where
  pointer : t.sp.val = s.sp.val + cs.length
  fault   : t.fault = s.fault
  below   : ∀ j < s.sp.val, t.stack[j]? = s.stack[j]?
  pushed  : ∀ j < cs.length, t.stack[s.sp.val + j]? = (cs[j]?).map (fun c => c.1 + 2)

/-- One CALL before `cs`: it keeps the live entries, and the calls of `cs` keep the one it pushed. -/
theorem PushesReturns.cons {cs : List (Word × Word)} {c : Word × Word} {s u t : State} (hsp : u.sp.val = s.sp.val + 1)
    (hfault : u.fault = s.fault) (hbelow : ∀ j < s.sp.val, u.stack[j]? = s.stack[j]?)
    (htop : u.stack[s.sp.val]? = some (c.1 + 2)) (h : PushesReturns cs u t) : PushesReturns (c :: cs) s t where
  pointer := by rw [h.pointer, hsp, List.length_cons]; omega
  fault := h.fault.trans hfault
  below j hj := (h.below j (by omega)).trans (hbelow j hj)
  pushed j hj := by
    cases j with
    | zero => exact (h.below s.sp.val (by omega)).trans htop
    | succ j =>
      have hj' := h.pushed j (Nat.lt_of_succ_lt_succ hj)
      rwa [hsp, Nat.add_right_comm, Nat.add_assoc] at hj'

theorem callAll_pushes (cs : List (Word × Word)) (s : State) (h : s.sp.val + cs.length ≤ 16) :
    ∃ t, callAll cs s = .next t ∧ PushesReturns cs s t := by
  induction cs generalizing s with
  | nil => exact ⟨s, rfl, rfl, rfl, fun _ _ => rfl, fun _ hj => absurd hj (Nat.not_lt_zero _)⟩
  | cons c cs ih =>
    rw [List.length_cons] at h
    obtain ⟨u, hu, hx, hsp, htop, hother, -⟩ :=
      (callPushesTheReturnAddress { s with pc := c.1 } c.2).1 (show s.sp.val < 16 by omega)
    obtain ⟨-, -, -, -, hfault, -⟩ := hx
    have hbelow (j : Nat) (hj : j < s.sp.val) : u.stack[j]? = s.stack[j]? := by
      have hlt : j < 16 := by omega
      rw [Vector.getElem?_eq_getElem hlt, Vector.getElem?_eq_getElem hlt]
      exact congrArg some (hother ⟨j, hlt⟩ hj.ne)
    obtain ⟨t, ht, hp⟩ := ih u (by simp only [hsp]; omega)
    refine ⟨t, ?_, hp.cons hsp hfault hbelow htop⟩
    simpa only [callAll, hu] using ht

/-- RETs, at most as many as there are live entries: `SP` falls by their number, and the last one resumes at the entry
it popped. -/
theorem returnAll_pops (k : Nat) (t : State) (h : k ≤ t.sp.val) :
    ∃ u, returnAll k t = .next u ∧ u.sp.val + k = t.sp.val ∧ u.fault = t.fault ∧
      (1 ≤ k → t.stack[t.sp.val - k]? = some u.pc) := by
  induction k generalizing t with
  | zero => exact ⟨t, rfl, rfl, rfl, fun h => absurd h (by omega)⟩
  | succ k ih =>
    obtain ⟨v, target, hv, htop, ⟨hpc, -, -, -, hfault, -⟩, hsp, hstack, -⟩ :=
      (returnPopsTheNewestEntry t).1 (by omega)
    obtain ⟨u, hu, husp, hufault, hlast⟩ := ih v (by omega)
    refine ⟨u, by simpa only [returnAll, hv] using hu, by omega, hufault.trans hfault, fun _ => ?_⟩
    have hidx : t.sp.val - (k + 1) = v.sp.val - k := by omega
    cases k with
    | zero =>
      cases hu
      rw [hpc, htop]
    | succ k => rw [hidx, ← hstack, hlast (by omega)]

/-- Settles O20: the calls stack up their return addresses, and the returns take them down from the top. -/
theorem callsAndReturnsNest : Obligations.CallsAndReturnsNest := by
  intro s cs hrun hfits
  obtain ⟨t, ht, hp⟩ := callAll_pushes cs s hfits
  have hsp := hp.pointer
  refine ⟨t, ht, hsp, fun k hk hle => ?_, ?_⟩
  · obtain ⟨u, hu, husp, -, hlast⟩ := returnAll_pops k t (by omega)
    refine ⟨u, hu, by omega, ?_⟩
    have hidx : t.sp.val - k = s.sp.val + (cs.length - k) := by omega
    rw [← hp.pushed _ (by omega), ← hidx, hlast hk]
  · obtain ⟨u, hu, husp, hufault, -⟩ := returnAll_pops cs.length t (by omega)
    refine ⟨u, hu, Fin.ext (by omega), fun h0 => exec_ret_underflow (by omega) ?_⟩
    rw [hufault, hp.fault, hrun]

end Sys2Proof.Machine

namespace Sys2Proof.Machine

/-! ### The flags as numbers (41_load_alu.md R120, R131, R132, R135, R136, R139) -/

theorem flagByte_eq_ite (p : Prop) [Decidable p] : flagByte (decide p) = if p then 1 else 0 := by
  simp [flagByte]

theorem toNat_flagByte (b : Bool) : (flagByte b).toNat = b.toNat := by cases b <;> rfl

/-- A flag that is bit `k` of a byte, as a number. -/
theorem toNat_flagByte_getLsbD (b : Byte) (k : Nat) : (flagByte (b.getLsbD k)).toNat = b.toNat / 2 ^ k % 2 :=
  (toNat_flagByte _).trans (Nat.toNat_testBit b.toNat k)

theorem toNat_lowBitFlag (b : Byte) : (lowBitFlag b).toNat = b.toNat % 2 := by
  rw [lowBitFlag, toNat_flagByte_getLsbD, Nat.pow_zero, Nat.div_one]

theorem toNat_highBitFlag (b : Byte) : (highBitFlag b).toNat = b.toNat / 128 := by
  rw [highBitFlag, toNat_flagByte_getLsbD]
  omega

/-! ### Subtractions and shifts (41_load_alu.md R132, R135, R136, R139) -/

/-- The end of SUB and SUBN: the difference `a - b` modulo 256, then not-borrow. -/
theorem advance_difference_spec (s : State) (x : Reg) (a b : Byte) :
    ∃ t, advance (s.setResultAndFlag x (a - b) (notBorrowFlag a b)) = .next t ∧
      (x ≠ 15 → (t.getV x).toNat = (a.toNat + 256 - b.toNat) % 256) ∧
      t.getV 15 = (if a.toNat ≥ b.toNat then 1 else 0) ∧
      Executes s t (s.pc + 2) ∧ KeepsRegistersBut (fun r => r = x ∨ r = 15) s t ∧ KeepsAllButRegisters s t := by
  have hdiff : (a - b).toNat = (a.toNat + 256 - b.toNat) % 256 := by bv_omega
  obtain ⟨t, he, hx, hf, hframe⟩ := advance_resultAndFlag_spec s x (a - b) (notBorrowFlag a b)
  exact ⟨t, he, fun h => hx h ▸ hdiff, hf.trans (flagByte_eq_ite _), hframe⟩

/-- Settles O24: SUB and SUBN end alike, with the operands exchanged. -/
theorem subtractionsLeaveNotBorrow : Obligations.SubtractionsLeaveNotBorrow := by
  intro s x y
  exact ⟨advance_difference_spec s x (s.getV x) (s.getV y), advance_difference_spec s x (s.getV y) (s.getV x)⟩

theorem toNat_ushiftRight_one (b : Byte) : (b >>> 1).toNat = b.toNat / 2 := by
  rw [BitVec.toNat_ushiftRight, Nat.shiftRight_eq_div_pow, Nat.pow_one]

theorem toNat_shiftLeft_one (b : Byte) : (b <<< 1).toNat = b.toNat * 2 % 256 := by
  rw [BitVec.toNat_shiftLeft, Nat.shiftLeft_eq, Nat.pow_one]

/-- Settles O25: the source of the statement is `shiftSource`, and a shift by one bit halves or doubles it. -/
theorem shiftsMoveOneBit : Obligations.ShiftsMoveOneBit := by
  intro s x y src hsrc
  obtain rfl : src = s.shiftSource x y := hsrc
  constructor
  · obtain ⟨t, he, hx, hf, hframe⟩ :=
      advance_resultAndFlag_spec s x (s.shiftSource x y >>> 1) (lowBitFlag (s.shiftSource x y))
    exact ⟨t, he, fun h => hx h ▸ toNat_ushiftRight_one _, hf ▸ toNat_lowBitFlag _, hframe⟩
  · obtain ⟨t, he, hx, hf, hframe⟩ :=
      advance_resultAndFlag_spec s x (s.shiftSource x y <<< 1) (highBitFlag (s.shiftSource x y))
    exact ⟨t, he, fun h => hx h ▸ toNat_shiftLeft_one _, hf ▸ toNat_highBitFlag _, hframe⟩

/-! ### Loads, logic, ADD and RND (41_load_alu.md R125 to R131, R141) -/

/-- Settles O21: each writes one register. -/
theorem loadsWriteTheDestination : Obligations.LoadsWriteTheDestination := by
  intro s x y kk
  refine ⟨advance_setV_spec s x kk, ?_, advance_setV_spec s x (s.getV y)⟩
  obtain ⟨t, he, hx, hframe⟩ := advance_setV_spec s x (s.getV x + kk)
  exact ⟨t, he, hx ▸ BitVec.toNat_add (s.getV x) kk, hframe⟩

/-- Settles O22: each writes its result, then the cleared flag. -/
theorem logicClearsVF : Obligations.LogicClearsVF := by
  intro s x y
  exact ⟨advance_resultAndFlag_spec s x (s.getV x ||| s.getV y) clearedFlag,
    advance_resultAndFlag_spec s x (s.getV x &&& s.getV y) clearedFlag,
    advance_resultAndFlag_spec s x (s.getV x ^^^ s.getV y) clearedFlag⟩

/-- Settles O23: the sum of the old operands, then their carry. -/
theorem addLeavesTheCarry : Obligations.AddLeavesTheCarry := by
  intro s x y
  obtain ⟨t, he, hx, hf, hframe⟩ :=
    advance_resultAndFlag_spec s x (s.getV x + s.getV y) (carryFlag (s.getV x) (s.getV y))
  exact ⟨t, he, fun h => hx h ▸ BitVec.toNat_add (s.getV x) (s.getV y), hf.trans (flagByte_eq_ite _), hframe⟩

/-- Settles O26: RND writes one register of the state whose draw is counted. -/
theorem randomByteIsMasked : Obligations.RandomByteIsMasked := by
  intro s x kk
  obtain ⟨t, he, hx, hexec, hregs, hi, hstack, htimers, hmem, hfb, hdraws⟩ :=
    advance_setV_spec { s with draws := s.draws + 1 } x (Config.freeRnd s.draws &&& kk)
  have hmask (b : Nat) (hb : kk.getLsbD b = false) : (t.getV x).getLsbD b = false := by
    rw [hx, BitVec.getLsbD_and, hb, Bool.and_false]
  exact ⟨t, he, hx, hdraws, hmask, hexec, hregs, hi, hstack, htimers, hmem, hfb⟩

end Sys2Proof.Machine

namespace Sys2Proof.Machine

/-! ### The index register (42_index_memory.md R152, R154, R156) -/

/-- `I` written and the default next `PC`: LDIX, ADDIX, FONT. -/
theorem advance_setI_spec (s : State) (w : Word) :
    ∃ t, advance (s.setI w) = .next t ∧ t.i = w ∧ Executes s t (s.pc + 2) ∧
      KeepsRegisters s t ∧ KeepsStack s t ∧ KeepsTimers s t ∧ KeepsMemory s t ∧ KeepsDisplay s t ∧ KeepsDraws s t :=
  ⟨_, rfl, rfl, ⟨rfl, rfl, rfl, rfl, rfl, rfl⟩, fun _ => rfl, ⟨rfl, rfl⟩, ⟨rfl, rfl⟩, fun _ => rfl, rfl, rfl⟩

/-- Settles O27: both write `I` alone, ADDIX the sum modulo 4096. -/
theorem indexIsLoadedAndAddedTo : Obligations.IndexIsLoadedAndAddedTo := by
  intro s x nnn
  refine ⟨advance_setI_spec s nnn, ?_⟩
  obtain ⟨t, he, hi, hframe⟩ := advance_setI_spec s (indexPlus s.i (s.getV x))
  exact ⟨t, he, hi ▸ indexPlus_toNat s.i (s.getV x), hframe⟩

/-- Settles O28: five times a byte fits in `I`. -/
theorem fontPointsAtTheGlyph : Obligations.FontPointsAtTheGlyph := by
  intro s x
  obtain ⟨t, he, hi, hframe⟩ := advance_setI_spec s (glyphAddress (s.getV x))
  exact ⟨t, he, hi ▸ glyphAddress_toNat (s.getV x), hframe⟩

/-! ### Block stores (42_index_memory.md R158, R162; 20_memory.md R57) -/

/-- The hundreds, tens and units digit of a byte fit in a byte each. -/
theorem toNat_bcdDigits (b : Byte) :
    (bcdDigits b)[0].toNat = b.toNat / 100 ∧ (bcdDigits b)[1].toNat = b.toNat / 10 % 10 ∧
      (bcdDigits b)[2].toNat = b.toNat % 10 := by
  have := b.isLt
  simp only [bcdDigits, List.getElem_cons_zero, List.getElem_cons_succ, BitVec.toNat_ofNat]
  omega

/-- Settles O29: the digits lie at the three bytes of the store, and past 0xFFF the store is refused. -/
theorem bcdStoresThreeDigits : Obligations.BcdStoresThreeDigits := by
  intro s x
  constructor
  · intro hfits
    have hread (k : Nat) (hk : k < 3) :
        (s.storeBytes s.i.toNat (bcdDigits (s.getV x))).readByte (s.i.toNat + k) = (bcdDigits (s.getV x))[k] :=
      s.readByte_storeBytes_inside s.i.toNat k (bcdDigits (s.getV x)) hk
    obtain ⟨hhundreds, htens, hunits⟩ := toNat_bcdDigits (s.getV x)
    refine ⟨_, exec_bcd_ok x hfits, ?_, ?_, ?_, fun a ha => s.readByte_storeBytes_outside s.i.toNat a _ ha,
      ⟨rfl, rfl, rfl, rfl, rfl, rfl⟩, fun _ => rfl, rfl, ⟨rfl, rfl⟩, ⟨rfl, rfl⟩, rfl, rfl⟩
    · exact (congrArg BitVec.toNat (hread 0 (by decide))).trans hhundreds
    · exact (congrArg BitVec.toNat (hread 1 (by decide))).trans htens
    · exact (congrArg BitVec.toNat (hread 2 (by decide))).trans hunits
  · intro hpast hrun
    rw [exec_bcd_fault x hpast, raise_faulted _ _ hrun]

/-- Settles O30: each register lies at its byte of the store, and past 0xFFF the store is refused. -/
theorem stmStoresTheRegisters : Obligations.StmStoresTheRegisters := by
  intro s x
  constructor
  · intro hfits
    refine ⟨_, exec_stm_ok x hfits, fun k hk => s.readByte_storeBytes_regsUpTo s.i.toNat hk, fun a ha => ?_,
      s.indexAfterBlock_toNat x, ⟨rfl, rfl, rfl, rfl, rfl, rfl⟩, fun _ => rfl, ⟨rfl, rfl⟩, ⟨rfl, rfl⟩, rfl, rfl⟩
    exact s.readByte_storeBytes_outside s.i.toNat a _ (by rwa [State.length_regsUpTo])
  · intro hpast hrun
    rw [exec_stm_fault x hpast, raise_faulted _ _ hrun]

/-! ### Block loads (42_index_memory.md R165; 20_memory.md R57) -/

/-- Each register of a block loaded from memory holds the byte at its place in the block. -/
theorem State.getElem_loadRegs_readBytes (s : State) (a : Nat) {x r : Reg} (h : r.val ≤ x.val) :
    (loadRegs s.v 0 (s.readBytes a (x.val + 1)))[r] = s.readByte (a + r.val) := by
  have hr : 0 ≤ r.val ∧ r.val < 0 + (s.readBytes a (x.val + 1)).length := by
    rw [State.length_readBytes]
    omega
  exact (getElem_loadRegs _ s.v 0 r.val r.isLt).trans ((dif_pos hr).trans (s.getElem_readBytes a _ r.val _))

/-- Settles O31: the loaded registers are the block's bytes, the others are none that LDM writes, and past 0xFFF the
read is refused. -/
theorem ldmLoadsTheRegisters : Obligations.LdmLoadsTheRegisters := by
  intro s x
  constructor
  · intro hfits
    have hkept (r : Reg) (hr : ¬ r.val ≤ x.val) : (s.effect (.ldm x)).getV r = s.getV r :=
      s.getV_effect (decide_eq_false hr)
    exact ⟨_, exec_ldm_ok x hfits, fun k hk => s.getElem_loadRegs_readBytes s.i.toNat hk, hkept,
      s.indexAfterBlock_toNat x, ⟨rfl, rfl, rfl, rfl, rfl, rfl⟩, ⟨rfl, rfl⟩, ⟨rfl, rfl⟩, fun _ => rfl, rfl, rfl⟩
  · intro hpast hrun
    rw [exec_ldm_fault x hpast, raise_faulted _ _ hrun]

/-- Settles O32: `I` stays through both, so LDM reads the bytes that STM stored. -/
theorem ldmAfterStmRestores : Obligations.LdmAfterStmRestores := by
  intro s x w hoff hfits
  obtain ⟨t, ht, hstored, -, hti, ⟨-, -, -, -, -, hconfig⟩, -⟩ := (stmStoresTheRegisters s x).1 hfits
  rw [if_neg (by rw [hoff]; decide)] at hti
  obtain ⟨u, hu, hloaded, hkept, hui, -⟩ :=
    (ldmLoadsTheRegisters { t with v := w } x).1 (show t.i.toNat + x.val ≤ 0xFFF by rwa [hti])
  rw [if_neg (show ¬ t.config.indexAutoInc = true by rw [hconfig, hoff]; decide)] at hui
  refine ⟨t, u, ht, hu, BitVec.eq_of_toNat_eq (hui.trans hti), fun k => ?_⟩
  split
  · next hk =>
    calc u.getV k = t.readByte (t.i.toNat + k.val) := hloaded k hk
      _ = t.readByte (s.i.toNat + k.val) := by rw [hti]
      _ = s.getV k := hstored k hk
  · next hk => exact hkept k hk

end Sys2Proof.Machine

namespace Sys2Proof.Machine

/-! ### CLS (43_display.md R172) -/

/-- Settles O35: the next state is the state itself, its framebuffer cleared, committed at the default next `PC`. -/
theorem clearScreenClearsEveryPixel : Obligations.ClearScreenClearsEveryPixel := by
  intro s
  exact ⟨_, rfl, pixel_clearFramebuffer, ⟨rfl, rfl, rfl, rfl, rfl, rfl⟩, fun _ => rfl, rfl, ⟨rfl, rfl⟩, ⟨rfl, rfl⟩,
    fun _ => rfl, rfl⟩

/-! ### Where the bits of a sprite land (43_display.md R176) -/

/-- A bit lands on its own coordinates, reduced under `QUIRK_SPRITE_WRAP`. -/
theorem target_eq_some {wrap : Bool} {r c : Nat} {p : Fin 32 × Fin 64} :
    target wrap r c = some p ↔
      if wrap then r % 32 = p.1.val ∧ c % 64 = p.2.val else r = p.1.val ∧ c = p.2.val := by
  cases wrap with
  | true => simp [target_wrap, Prod.ext_iff, Fin.ext_iff]
  | false => rw [target_clip_eq_some, if_neg Bool.false_ne_true, eq_comm (a := r), eq_comm (a := c)]

/-- In both modes a bit's coordinates are those of its pixel, up to the size of the screen. -/
theorem mod_of_target {wrap : Bool} {r c : Nat} {p : Fin 32 × Fin 64} (h : target wrap r c = some p) :
    r % 32 = p.1.val ∧ c % 64 = p.2.val := by
  rw [target_eq_some] at h
  split at h
  · exact h
  · omega

/-- The pixels that the set bits of `b` from loop bit `bit` on, `fuel` of them, land on. -/
def byteTargets (wrap : Bool) (r x0 : Nat) (b : Byte) (fuel bit : Nat) : Set (Fin 32 × Fin 64) :=
  {p | ∃ k, bit ≤ k ∧ k < bit + fuel ∧ b.getLsbD (7 - k) = true ∧ target wrap r (x0 + k) = some p}

/-- The pixels that the set bits of a sprite's bytes land on, one byte for each row from `r` on. -/
def rowTargets (wrap : Bool) (x0 r : Nat) (bs : List Byte) : Set (Fin 32 × Fin 64) :=
  {p | ∃ j b, bs[j]? = some b ∧ p ∈ byteTargets wrap (r + j) x0 b 8 0}

theorem byteTargets_zero (wrap : Bool) (r x0 : Nat) (b : Byte) (bit : Nat) : byteTargets wrap r x0 b 0 bit = ∅ := by
  ext p
  simp only [byteTargets, Set.mem_ofPred_eq, Set.mem_empty_iff_false, iff_false]
  rintro ⟨k, hlo, hhi, -⟩
  omega

theorem byteTargets_succ (wrap : Bool) (r x0 : Nat) (b : Byte) (fuel bit : Nat) :
    byteTargets wrap r x0 b (fuel + 1) bit =
      {p | b.getLsbD (7 - bit) = true ∧ target wrap r (x0 + bit) = some p} ∪
        byteTargets wrap r x0 b fuel (bit + 1) := by
  ext p
  constructor
  · rintro ⟨k, hlo, hhi, hset, hp⟩
    obtain rfl | hlt := Nat.eq_or_lt_of_le hlo
    · exact .inl ⟨hset, hp⟩
    · exact .inr ⟨k, hlt, by omega, hset, hp⟩
  · rintro (⟨hset, hp⟩ | ⟨k, hlo, hhi, hset, hp⟩)
    · exact ⟨bit, le_rfl, by omega, hset, hp⟩
    · exact ⟨k, by omega, by omega, hset, hp⟩

theorem rowTargets_nil (wrap : Bool) (x0 r : Nat) : rowTargets wrap x0 r [] = ∅ := by
  simp [rowTargets]

theorem rowTargets_cons (wrap : Bool) (x0 r : Nat) (b : Byte) (bs : List Byte) :
    rowTargets wrap x0 r (b :: bs) = byteTargets wrap r x0 b 8 0 ∪ rowTargets wrap x0 (r + 1) bs := by
  ext p
  constructor
  · rintro ⟨j, b', hj, hp⟩
    cases j with
    | zero =>
      cases hj
      exact .inl hp
    | succ j => exact .inr ⟨j, b', hj, by rwa [Nat.add_right_comm r 1 j]⟩
  · rintro (hp | ⟨j, b', hj, hp⟩)
    · exact ⟨0, b, rfl, hp⟩
    · exact ⟨j + 1, b', hj, by rwa [Nat.add_right_comm r 1 j] at hp⟩

/-- A byte is narrower than the screen, so its bits land on different pixels, wrapped or not. -/
theorem disjoint_bit_byteTargets {wrap : Bool} {r x0 : Nat} {b : Byte} {fuel bit : Nat} (h : fuel < 64) :
    Disjoint {p | b.getLsbD (7 - bit) = true ∧ target wrap r (x0 + bit) = some p}
      (byteTargets wrap r x0 b fuel (bit + 1)) := by
  rw [Set.disjoint_left]
  rintro p ⟨-, hp⟩ ⟨k, hlo, hhi, -, hp'⟩
  have := (mod_of_target hp).2
  have := (mod_of_target hp').2
  omega

/-- A sprite is lower than the screen, so its rows land on different pixels, wrapped or not. -/
theorem disjoint_byteTargets_rowTargets {wrap : Bool} {r x0 : Nat} {b : Byte} {bs : List Byte} (h : bs.length < 32) :
    Disjoint (byteTargets wrap r x0 b 8 0) (rowTargets wrap x0 (r + 1) bs) := by
  rw [Set.disjoint_left]
  rintro p ⟨k, -, -, -, hp⟩ ⟨j, b', hj, k', -, -, -, hp'⟩
  obtain ⟨hlt, -⟩ := List.getElem?_eq_some_iff.1 hj
  have := (mod_of_target hp).1
  have := (mod_of_target hp').1
  omega

/-! ### What drawing does to the framebuffer and the collision (43_display.md R176, R177) -/

/-- `e` is `d` with the pixels of `S` inverted, and a collision where one of them was 1. -/
structure Drawing.InvertsOn (S : Set (Fin 32 × Fin 64)) (d e : Drawing) : Prop where
  inverted : ∀ p ∈ S, e.fb.pixel p.1 p.2 = !d.fb.pixel p.1 p.2
  kept     : ∀ p ∉ S, e.fb.pixel p.1 p.2 = d.fb.pixel p.1 p.2
  collided : e.hit = true ↔ d.hit = true ∨ ∃ p ∈ S, d.fb.pixel p.1 p.2 = true

theorem Drawing.InvertsOn.refl (d : Drawing) : Drawing.InvertsOn ∅ d d where
  inverted p hp := hp.elim
  kept _ _ := rfl
  collided := by simp

/-- Two drawings in a row, on different pixels: the first does not disturb the collisions of the second. -/
theorem Drawing.InvertsOn.trans {S T : Set (Fin 32 × Fin 64)} {d e f : Drawing} (hd : Drawing.InvertsOn S d e)
    (he : Drawing.InvertsOn T e f) (h : Disjoint S T) : Drawing.InvertsOn (S ∪ T) d f where
  inverted p hp := by
    obtain hS | hT := hp
    · rw [he.kept p (Set.disjoint_left.1 h hS), hd.inverted p hS]
    · rw [he.inverted p hT, hd.kept p (Set.disjoint_right.1 h hT)]
  kept p hp := by
    obtain ⟨hS, hT⟩ := not_or.1 hp
    rw [he.kept p hT, hd.kept p hS]
  collided := by
    have hT : (∃ p ∈ T, e.fb.pixel p.1 p.2 = true) ↔ ∃ p ∈ T, d.fb.pixel p.1 p.2 = true :=
      exists_congr fun p => and_congr_right fun hp => by rw [hd.kept p (Set.disjoint_right.1 h hp)]
    simp only [he.collided, hd.collided, hT, Set.mem_union, or_and_right, exists_or, or_assoc]

theorem drawBit_invertsOn (wrap : Bool) (r c : Nat) (d : Drawing) :
    Drawing.InvertsOn {p | target wrap r c = some p} d (drawBit wrap r c d) := by
  cases h : target wrap r c with
  | none =>
    rw [drawBit_clipped d h]
    simpa using Drawing.InvertsOn.refl d
  | some q =>
    rw [drawBit_lands d h]
    constructor
    · rintro p ⟨⟩
      exact (Framebuffer.pixel_flip ..).trans (if_pos ⟨rfl, rfl⟩)
    · intro p hp
      exact (Framebuffer.pixel_flip ..).trans (if_neg fun ⟨hr, hc⟩ => hp (congrArg some (Prod.ext hr hc).symm))
    · simp

/-- One step of a byte's loop: only a set bit is drawn. -/
theorem ite_drawBit_invertsOn (wrap b : Bool) (r c : Nat) (d : Drawing) :
    Drawing.InvertsOn {p | b = true ∧ target wrap r c = some p} d (if b then drawBit wrap r c d else d) := by
  cases b with
  | true => simpa using drawBit_invertsOn wrap r c d
  | false => simpa using Drawing.InvertsOn.refl d

theorem drawBits_invertsOn (wrap : Bool) (r x0 : Nat) (b : Byte) {fuel : Nat} (bit : Nat) (d : Drawing)
    (h : fuel ≤ 64) :
    Drawing.InvertsOn (byteTargets wrap r x0 b fuel bit) d (drawBits wrap r x0 b fuel bit d) := by
  induction fuel generalizing bit d with
  | zero =>
    rw [byteTargets_zero]
    exact .refl d
  | succ fuel ih =>
    rw [byteTargets_succ]
    exact (ite_drawBit_invertsOn wrap _ r (x0 + bit) d).trans (ih (bit + 1) _ (by omega))
      (disjoint_bit_byteTargets h)

theorem drawRows_invertsOn (wrap : Bool) (x0 r : Nat) {bs : List Byte} (d : Drawing) (h : bs.length ≤ 32) :
    Drawing.InvertsOn (rowTargets wrap x0 r bs) d (drawRows wrap x0 r bs d) := by
  induction bs generalizing r d with
  | nil =>
    rw [rowTargets_nil]
    exact .refl d
  | cons b bs ih =>
    rw [rowTargets_cons]
    exact (drawBits_invertsOn wrap r x0 b 0 d (by decide)).trans (ih (r + 1) _ (Nat.le_of_succ_le h))
      (disjoint_byteTargets_rowTargets h)

/-! ### DRW (43_display.md R174 to R178) -/

/-- The bytes DRW reads land exactly on the pixels that `covers` names. -/
theorem State.mem_rowTargets_iff_covers {s : State} {vx vy : Byte} {n : Nat} {r : Fin 32} {c : Fin 64} :
    (r, c) ∈ rowTargets s.config.spriteWrap (vx.toNat % 64) (vy.toNat % 32) (s.readBytes s.i.toNat n) ↔
      s.covers vx vy n r c := by
  constructor
  · rintro ⟨row, b, hrow, bit, -, hbit, hset, hp⟩
    obtain ⟨hlt, rfl⟩ := List.getElem?_eq_some_iff.1 hrow
    rw [State.getElem_readBytes] at hset
    exact ⟨row, bit, by simpa using hlt, by simpa using hbit, hset, target_eq_some.1 hp⟩
  · rintro ⟨row, bit, hrow, hbit, hset, hp⟩
    exact ⟨row, s.readByte (s.i.toNat + row), by simp [State.readBytes, hrow], bit, Nat.zero_le _, by simpa using hbit,
      hset, target_eq_some.2 hp⟩

/-- DRW's drawing inverts the pixels that its sprite covers. -/
theorem State.drawing_invertsOn (s : State) (x y : Reg) {n : Nat} (h : n ≤ 15) :
    Drawing.InvertsOn {p | s.covers (s.getV x) (s.getV y) n p.1 p.2} { fb := s.fb, hit := false }
      (s.drawing x y n) := by
  have hset : {p : Fin 32 × Fin 64 | s.covers (s.getV x) (s.getV y) n p.1 p.2} = rowTargets s.config.spriteWrap
      ((s.getV x).toNat % 64) ((s.getV y).toNat % 32) (s.readBytes s.i.toNat n) :=
    Set.ext fun _ => State.mem_rowTargets_iff_covers.symm
  rw [hset]
  exact drawRows_invertsOn _ _ _ _ (by rw [State.length_readBytes]; omega)

theorem flagByte_eq_zero_or_one (b : Bool) : flagByte b = 0 ∨ flagByte b = 1 := by cases b <;> decide

/-- Settles O36: the drawing inverts the covered pixels, its collision is the flag, and past 0xFFF it is refused. -/
theorem drawXorsTheSprite : Obligations.DrawXorsTheSprite := by
  intro s x y n hn
  constructor
  · intro hfits
    obtain ⟨hinverted, hkept, hcollided⟩ := s.drawing_invertsOn x y hn
    have hflag : (s.effect (.drw x y n)).getV 15 = collisionFlag (s.drawing x y n).hit := State.getV_setV_same ..
    refine ⟨_, exec_drw_ok x y hfits, fun r c => hinverted (r, c), fun r c => hkept (r, c), ?_, ?_,
      ⟨rfl, rfl, rfl, rfl, rfl, rfl⟩, fun r hr => State.getV_setV_other _ _ hr, rfl, ⟨rfl, rfl⟩, ⟨rfl, rfl⟩,
      fun _ => rfl, rfl⟩
    · exact (flagByte_eq_zero_or_one _).imp hflag.trans hflag.trans
    · refine (Eq.congr_left hflag).trans (flagByte_eq_one.trans (hcollided.trans ?_))
      simp
  · intro hpos hpast hrun
    rw [exec_drw_fault x y hpos hpast, raise_faulted _ _ hrun]

/-- What a sprite covers is read from memory, `I` and the parameters alone. -/
theorem State.covers_congr {s t : State} (hmem : KeepsMemory s t) (hi : KeepsIndex s t) (hc : t.config = s.config)
    (vx vy : Byte) (n : Nat) (r : Fin 32) (c : Fin 64) : t.covers vx vy n r c ↔ s.covers vx vy n r c := by
  simp only [State.covers, State.spriteBit, hmem _, show t.i = s.i from hi, hc]

/-- Settles O37: the first draw keeps what the sprite covers, so the second inverts the same pixels again. -/
theorem drawTwiceRestoresTheScreen : Obligations.DrawTwiceRestoresTheScreen := by
  intro s x y n hn hfits
  obtain ⟨t, ht, hon, hoff, -, -, ⟨-, -, -, -, -, hconfig⟩, -, hi, -, -, hmem, -⟩ :=
    (drawXorsTheSprite s x y n hn).1 hfits
  refine ⟨t, ht, fun hx hy => ?_⟩
  obtain ⟨u, hu, hon', hoff', -, hflag, -⟩ :=
    (drawXorsTheSprite { t with pc := s.pc } x y n hn).1 (by rwa [show t.i = s.i from hi])
  have hcovers (r : Fin 32) (c : Fin 64) :
      State.covers { t with pc := s.pc } (t.getV x) (t.getV y) n r c ↔ s.covers (s.getV x) (s.getV y) n r c := by
    rw [hx, hy]
    exact State.covers_congr hmem hi hconfig _ _ n r c
  refine ⟨u, hu, Framebuffer.ext_pixel fun r c => ?_, hflag.trans ?_⟩
  · by_cases h : s.covers (s.getV x) (s.getV y) n r c
    · calc u.fb.pixel r c = !t.fb.pixel r c := hon' r c ((hcovers r c).2 h)
        _ = s.fb.pixel r c := by rw [hon r c h, Bool.not_not]
    · exact (hoff' r c (mt (hcovers r c).1 h)).trans (hoff r c h)
  · refine exists₂_congr fun r c => (and_congr_left' (hcovers r c)).trans (and_congr_right fun h => ?_)
    rw [hon r c h, Bool.not_eq_true']

/-- Eight set bits at (60, 0) cover the last four columns of row 0, and the first four when pixels wrap. -/
theorem State.covers_rightEdge {s : State} (h : s.readByte s.i.toNat = 0xFF) (r : Fin 32) (c : Fin 64) :
    s.covers 60 0 1 r c ↔ r.val = 0 ∧ (c.val ≥ 60 ∨ (s.config.spriteWrap = true ∧ c.val ≤ 3)) := by
  have hset {bit : Nat} (hbit : bit < 8) : s.spriteBit 0 bit = true := by
    rw [State.spriteBit, Nat.add_zero, h, show (0xFF : Byte) = BitVec.allOnes 8 from rfl, BitVec.getLsbD_allOnes]
    exact decide_eq_true (by omega)
  simp only [State.covers, show (60 : Byte).toNat % 64 = 60 from rfl, show (0 : Byte).toNat % 32 = 0 from rfl]
  constructor
  · rintro ⟨row, bit, hrow, hbit, -, hp⟩
    split at hp
    · next hwrap =>
      simp only [hwrap, true_and]
      omega
    · omega
  · rintro ⟨hr, hright | ⟨hwrap, hleft⟩⟩
    · refine ⟨0, c.val - 60, by decide, by omega, hset (by omega), ?_⟩
      split <;> omega
    · refine ⟨0, c.val + 4, by decide, by omega, hset (by omega), ?_⟩
      rw [if_pos hwrap]
      omega

/-- Settles O38: a draw of height 1 inverts what its one byte covers. -/
theorem spriteAtTheRightEdge : Obligations.SpriteAtTheRightEdge := by
  intro s x y hx hy hfits hbyte
  obtain ⟨t, ht, hon, hoff, -⟩ := (drawXorsTheSprite s x y 1 (by decide)).1 (.inr hfits)
  simp only [hx, hy, State.covers_rightEdge hbyte] at hon hoff
  refine ⟨t, ht, fun r c => ?_⟩
  split
  · next h => exact hon r c h
  · next h => exact hoff r c h

end Sys2Proof.Machine

namespace Sys2Proof.Machine

/-! ### SKP and SKNP (44_keys_timers.md R192, R193; 60_exceptions.md R216) -/

/-- Settles O39, by whether `Vx` names a key: then SKP skips on that key's bit and SKNP on its negation, and otherwise both
raise. -/
theorem keySkipsTestTheKey : Obligations.KeySkipsTestTheKey := by
  intro s x
  constructor
  · intro k hk
    rw [exec_skp_ok hk, exec_sknp_ok hk]
    exact ⟨skipIf_spec_of_iff s Iff.rfl, skipIf_spec_of_iff s (Bool.not_eq_true' _).to_iff⟩
  · intro hpast hrun
    rw [exec_skp_fault hpast, exec_sknp_fault hpast, raise_faulted _ _ hrun, raise_faulted _ _ hrun]
    exact ⟨rfl, rfl⟩

/-! ### WKEY (44_keys_timers.md R195) -/

/-- The index of a key fits in a byte. -/
theorem toNat_ofNat_key (k : Key) : (BitVec.ofNat 8 k.val).toNat = k.val :=
  (BitVec.toNat_ofNat k.val 8).trans (Nat.mod_eq_of_lt (k.isLt.trans (by decide)))

/-- Settles O40: WKEY blocks, or ends as a write of one register. -/
theorem waitForKeyTakesTheLowest : Obligations.WaitForKeyTakesTheLowest := by
  intro s x
  refine ⟨exec_wkey_blocked x, fun k hk hmin => ?_⟩
  obtain ⟨t, he, hx, hframe⟩ := advance_setV_spec s x (BitVec.ofNat 8 k.val)
  exact ⟨t, (exec_wkey_resolves x hk hmin).trans he, hx ▸ toNat_ofNat_key k, hframe⟩

/-! ### LDDT, STDT and STST (44_keys_timers.md R198 to R200) -/

/-- Both timers written and the default next `PC`: STDT and STST, each of which writes the old value of one timer back. -/
theorem advance_timers_spec (s : State) (d e : Byte) :
    ∃ t, advance { s with dt := d, st := e } = .next t ∧ t.dt = d ∧ t.st = e ∧ Executes s t (s.pc + 2) ∧
      KeepsRegisters s t ∧ KeepsIndex s t ∧ KeepsStack s t ∧ KeepsMemory s t ∧ KeepsDisplay s t ∧ KeepsDraws s t :=
  ⟨_, rfl, rfl, rfl, ⟨rfl, rfl, rfl, rfl, rfl, rfl⟩, fun _ => rfl, rfl, ⟨rfl, rfl⟩, fun _ => rfl, rfl, rfl⟩

/-- Settles O41: LDDT writes one register, STDT and STST one of the two timers. -/
theorem timerInstructionsCopyOneByte : Obligations.TimerInstructionsCopyOneByte := by
  intro s x
  refine ⟨advance_setV_spec s x s.dt, advance_timers_spec s (s.getV x) s.st, ?_⟩
  obtain ⟨t, he, hdt, hst, hframe⟩ := advance_timers_spec s s.dt (s.getV x)
  exact ⟨t, he, hst, hdt, hframe⟩

end Sys2Proof.Machine

namespace Sys2Proof.Machine

/-! ### The fault a STEP raises (60_exceptions.md R211, R212, R214, R218) -/

theorem stepFault_of_fetch_none {s : State} (h : s.fetch = none) : stepFault s = some .addressOutOfRange :=
  if_pos (State.fetch_eq_none.1 h)

theorem stepFault_of_decode_error {s : State} {op : Word} {r : DecodeReject} (h : s.fetch = some op)
    (hd : decodeWord op = .error r) : stepFault s = some .decodeError := by
  obtain ⟨hpc, rfl⟩ := State.fetch_eq_some.1 h
  simp only [stepFault, Nat.not_lt.2 hpc, if_false, hd]

theorem stepFault_of_decode_ok {s : State} {op : Word} {i : Instr} (h : s.fetch = some op)
    (hd : decodeWord op = .ok i) : stepFault s = faultOf i s := by
  obtain ⟨hpc, rfl⟩ := State.fetch_eq_some.1 h
  simp only [stepFault, Nat.not_lt.2 hpc, if_false, hd]

/-- The two ways a `STEP` of a running machine can go: it enters the fault that `stepFault` names, with the fetched word (0
when none can be fetched) in the record; or it leaves the record as it was. -/
theorem step_by_stepFault {s : State} (hrun : s.halted = false) :
    (∃ k, stepFault s = some k ∧ step s = .next (s.faulted k (s.fetch.getD 0))) ∨
    (stepFault s = none ∧ ∃ t, step s = .next t ∧ t.fault = s.fault) := by
  obtain ⟨hh, -⟩ | ⟨-, hf, hs⟩ | ⟨-, op, r, hop, hd, hs⟩ | ⟨-, op, i, hop, hd, hs⟩ := step_cases s
  · cases hh.symm.trans hrun
  · rw [hf]
    exact .inl ⟨_, stepFault_of_fetch_none hf, hs.trans (raise_running _ 0 hrun)⟩
  · rw [hop]
    exact .inl ⟨_, stepFault_of_decode_error hop hd, hs.trans (raise_running _ op hrun)⟩
  · rw [stepFault_of_decode_ok hop hd, hs, hop]
    obtain ⟨k, hk, he⟩ | ⟨hk, -, he⟩ | ⟨hk, -, he⟩ := exec_outcome i s
    · refine .inl ⟨k, hk, ?_⟩
      rw [he, encode_of_decodeWord hd]
      exact raise_running k op hrun
    · exact .inr ⟨hk, _, he, rfl⟩
    · exact .inr ⟨hk, _, he, s.effect_fault i⟩

theorem stepResponse_eq_fault {s t : State} {k : Fault} :
    stepResponse s t = .fault k ↔ s.halted = false ∧ t.fault.kind = some k := by
  unfold stepResponse
  split
  · next hh => simp [hh]
  · next hh =>
    split
    · next j hj => simp [hh, hj]
    · next hj => split <;> simp [hj]

/-- Settles O10, by the two ways a running step can go. -/
theorem stepRaisesExactlyTheListedFaults : Obligations.StepRaisesExactlyTheListedFaults := by
  intro s hrun
  obtain ⟨k, hk, hs⟩ | ⟨hk, t, hs, ht⟩ := step_by_stepFault (halted_eq_false.2 hrun)
  · exact ⟨_, hs, hk.symm⟩
  · exact ⟨t, hs, by rw [ht, hrun, hk]⟩

/-- Settles O9: the step raises in its decode phase. -/
theorem illegalWordFaults : Obligations.IllegalWordFaults := by
  intro s op r hrun hop hd
  exact operate_step_of_raise hrun (step_decode_fault (halted_eq_false.2 hrun) hop hd)

/-! ### The key operations (60_exceptions.md R216, R236, R237) -/

/-- A natural number is the index of a key or above all of them. -/
theorem isKey_or_gt (n : Nat) : (∃ k : Key, n = k.val) ∨ n > 15 := by
  by_cases h : n < 16
  · exact .inl ⟨⟨n, h⟩, rfl⟩
  · exact .inr (by omega)

theorem doKeyWrite_key (k : Key) (pressed : Bool) (s : State) :
    doKeyWrite k.val pressed s = ({ s with key := s.key.set k pressed }, .done) := by
  simp only [doKeyWrite, keyIndex_eq_some.2 rfl]

theorem doKeyWrite_invalid {n : Nat} (pressed : Bool) (s : State) (h : n > 15) :
    doKeyWrite n pressed s = raiseOutside .invalidKeyIndex s := by
  simp only [doKeyWrite, keyIndex_eq_none.2 h]

theorem doKeyRead_key (k : Key) (s : State) : doKeyRead k.val s = (s, .bit s.key[k]) := by
  simp only [doKeyRead, keyIndex_eq_some.2 rfl]

theorem doKeyRead_invalid {n : Nat} (s : State) (h : n > 15) : doKeyRead n s = raiseOutside .invalidKeyIndex s := by
  simp only [doKeyRead, keyIndex_eq_none.2 h]

/-- The first fault of an environment-side operation, in the terms of Safety.lean (R214). -/
theorem raiseOutside_faulted (k : Fault) {s : State} (h : s.fault.kind = none) :
    raiseOutside k s = (s.faulted k 0, .fault k) :=
  congrArg (·, Response.fault k) (s.latchFault_first k s.pc 0 h)

/-- A key write with an index in range writes that key, keeps the other keys, and changes nothing else. -/
theorem doKeyWrite_spec (k : Key) (pressed : Bool) (s : State) :
    ∃ t, doKeyWrite k.val pressed s = (t, .done) ∧ t.key[k] = pressed ∧ (∀ j : Key, j ≠ k → t.key[j] = s.key[j]) ∧
      t = { s with key := t.key } :=
  ⟨_, doKeyWrite_key k pressed s, Vector.getElem_set_self k.isLt,
    fun j hj => Vector.getElem_set_ne k.isLt j.isLt fun e => hj (Fin.ext e.symm), rfl⟩

/-- Settles O49: both operations are a key write, which is in range or raises. -/
theorem keyOperationsWriteOneKey : Obligations.KeyOperationsWriteOneKey := by
  intro s
  constructor
  · intro k
    obtain ⟨t, ht, hset⟩ := doKeyWrite_spec k true s
    obtain ⟨u, hu, hclear⟩ := doKeyWrite_spec k false s
    exact ⟨⟨t, congrArg _ ht, hset⟩, ⟨u, congrArg _ hu, hclear⟩⟩
  · intro n hn hrun
    simp only [operate, doKeyWrite_invalid _ s hn, raiseOutside_faulted _ hrun, and_self]

/-- Settles O50, by whether the index names a key. -/
theorem keyReadAnswersTheKey : Obligations.KeyReadAnswersTheKey := by
  intro s
  constructor
  · intro k
    simp only [operate, doKeyRead_key]
  · intro n hn hrun
    simp only [operate, doKeyRead_invalid s hn, raiseOutside_faulted _ hrun]

/-! ### Every fault is a latch of the record (60_exceptions.md R214, R219, R221) -/

/-- What the record `FAULT` gets as `op` from an operation: the fetched word from a `STEP`, 0 from any other (R214). -/
def State.faultWord (s : State) (o : Operation) : Word := if o = .step then s.fetch.getD 0 else 0

/-- A latch changes nothing but `FAULT`. -/
theorem State.latchFault_frame (s : State) (k : Fault) (a op : Word) :
    s.latchFault k a op = { s with fault := (s.latchFault k a op).fault } := by
  unfold State.latchFault
  split
  · rfl
  · rfl

theorem latched_of_raiseOutside {s t : State} {j k : Fault} (h : raiseOutside j s = (t, .fault k)) :
    t = s.latchFault k s.pc 0 := by
  cases h
  rfl

theorem latched_of_step {s t : State} {k : Fault} (h : operate .step s = .next (t, .fault k)) :
    t = s.latchFault k s.pc (s.fetch.getD 0) := by
  obtain ⟨ht, hr⟩ := step_of_operate_step h
  obtain ⟨hrun, hk⟩ := stepResponse_eq_fault.1 hr.symm
  rw [s.latchFault_first _ _ _ (halted_eq_false.1 hrun)]
  obtain ⟨j, -, hs⟩ | ⟨-, u, hs, hu⟩ := step_by_stepFault hrun
  · cases hs.symm.trans ht
    cases hk
    rfl
  · cases hs.symm.trans ht
    rw [hu, halted_eq_false.1 hrun] at hk
    cases hk

theorem latched_of_doLoad {bytes : List Byte} {s t : State} {k : Fault}
    (h : doLoad bytes s = .next (t, .fault k)) : t = s.latchFault k s.pc 0 := by
  unfold doLoad at h
  split at h
  · cases h
  · split at h
    · cases h
      rfl
    · cases h

theorem latched_of_doKeyWrite {n : Nat} {pressed : Bool} {s t : State} {k : Fault}
    (h : doKeyWrite n pressed s = (t, .fault k)) : t = s.latchFault k s.pc 0 := by
  obtain ⟨j, rfl⟩ | hn := isKey_or_gt n
  · cases (doKeyWrite_key j pressed s).symm.trans h
  · exact latched_of_raiseOutside ((doKeyWrite_invalid pressed s hn).symm.trans h)

theorem latched_of_doKeyRead {n : Nat} {s t : State} {k : Fault} (h : doKeyRead n s = (t, .fault k)) :
    t = s.latchFault k s.pc 0 := by
  obtain ⟨j, rfl⟩ | hn := isKey_or_gt n
  · cases (doKeyRead_key j s).symm.trans h
  · exact latched_of_raiseOutside ((doKeyRead_invalid s hn).symm.trans h)

/-- An operation that answers a fault has latched that fault and done nothing else. -/
theorem latched_of_operate {o : Operation} {s t : State} {k : Fault} (h : operate o s = .next (t, .fault k)) :
    t = s.latchFault k s.pc (s.faultWord o) := by
  cases o with
  | step => exact latched_of_step h
  | load bytes => exact latched_of_doLoad h
  | keySet n | keyClear n => exact latched_of_doKeyWrite (Host.Outcome.next.inj h)
  | keyRead n => exact latched_of_doKeyRead (Host.Outcome.next.inj h)
  | reset | tick | fbRead => cases h

/-- Settles O11: a latch writes the record when it holds no fault, and nothing otherwise. -/
theorem faultsArePrecise : Obligations.FaultsArePrecise := by
  intro o s t k h
  obtain rfl := latched_of_operate h
  refine ⟨s.latchFault_frame _ _ _, fun hrun => ?_, fun hhalt => ?_⟩
  · rw [s.latchFault_first _ _ _ hrun]
    rfl
  · rw [s.latchFault_later _ _ _ hhalt]

/-! ### The halted state (60_exceptions.md R220, R221) -/

/-- The states that differ from `s` in the timers and the key latch alone. -/
def State.TimersAndKeysMoved (s t : State) : Prop := ∃ d e k, t = { s with dt := d, st := e, key := k }

theorem State.TimersAndKeysMoved.refl (s : State) : s.TimersAndKeysMoved s := ⟨s.dt, s.st, s.key, rfl⟩

theorem State.TimersAndKeysMoved.trans {s t u : State} (ht : s.TimersAndKeysMoved t) (hu : t.TimersAndKeysMoved u) :
    s.TimersAndKeysMoved u := by
  obtain ⟨_, _, _, rfl⟩ := ht
  obtain ⟨d, e, k, rfl⟩ := hu
  exact ⟨d, e, k, rfl⟩

theorem State.TimersAndKeysMoved.halted_eq {s t : State} (h : s.TimersAndKeysMoved t) : t.halted = s.halted := by
  obtain ⟨_, _, _, rfl⟩ := h
  rfl

/-- An environment-side fault of a halted machine is only answered (R221). -/
theorem raiseOutside_halted (k : Fault) {s : State} (h : s.halted = true) : raiseOutside k s = (s, .fault k) :=
  congrArg (·, Response.fault k) (s.latchFault_later k s.pc 0 (Option.isSome_iff_ne_none.1 h))

theorem doKeyWrite_halted {n : Nat} {pressed : Bool} {s t : State} {r : Response} (h : s.halted = true)
    (he : doKeyWrite n pressed s = (t, r)) : s.TimersAndKeysMoved t := by
  obtain ⟨k, rfl⟩ | hn := isKey_or_gt n
  · cases (doKeyWrite_key k pressed s).symm.trans he
    exact ⟨s.dt, s.st, _, rfl⟩
  · cases (raiseOutside_halted _ h).symm.trans ((doKeyWrite_invalid pressed s hn).symm.trans he)
    exact .refl s

theorem doKeyRead_halted {n : Nat} {s t : State} {r : Response} (h : s.halted = true)
    (he : doKeyRead n s = (t, r)) : t = s := by
  obtain ⟨k, rfl⟩ | hn := isKey_or_gt n
  · cases (doKeyRead_key k s).symm.trans he
    rfl
  · cases (raiseOutside_halted _ h).symm.trans ((doKeyRead_invalid s hn).symm.trans he)
    rfl

/-- No operation but `RESET` changes more of a halted machine than its timers and keys. -/
theorem operate_halted {o : Operation} {s t : State} {r : Response} (h : s.halted = true) (ho : o ≠ .reset)
    (he : operate o s = .next (t, r)) : s.TimersAndKeysMoved t := by
  cases o with
  | reset => exact absurd rfl ho
  | load bytes => cases (doLoad_refused bytes (.inr h)).symm.trans he
  | step =>
    cases (step_halted h).symm.trans (step_of_operate_step he).1
    exact .refl s
  | tick =>
    cases he
    exact ⟨_, _, s.key, rfl⟩
  | keySet n | keyClear n => exact doKeyWrite_halted h (Host.Outcome.next.inj he)
  | keyRead n =>
    cases doKeyRead_halted h (Host.Outcome.next.inj he)
    exact .refl s
  | fbRead =>
    cases he
    exact .refl s

theorem runOps_halted {ops : List Operation} {s t : State} {rs : List Response} (h : s.halted = true)
    (hreset : Operation.reset ∉ ops) (hr : runOps ops s = .next (t, rs)) : s.TimersAndKeysMoved t := by
  induction ops generalizing s rs with
  | nil =>
    cases hr
    exact .refl _
  | cons o ops ih =>
    obtain ⟨u, r, rs', hu, ht, -⟩ := runOps_cons_next hr
    have hsu : s.TimersAndKeysMoved u := operate_halted h (List.ne_of_not_mem_cons hreset).symm hu
    exact hsu.trans (ih (hsu.halted_eq.trans h) (List.not_mem_of_not_mem_cons hreset) ht)

/-- Settles O59, by induction on the history. -/
theorem haltedUntilReset : Obligations.HaltedUntilReset := by
  intro ops s t rs hhalt hreset hr
  obtain ⟨d, e, k, rfl⟩ := runOps_halted (Option.isSome_iff_ne_none.2 hhalt) hreset hr
  rfl

/-! ### TICK and the tick interval (60_exceptions.md R232 to R234) -/

theorem State.tone_eq (s : State) : s.tone = decide (s.st.toNat = 1) := by
  rw [State.tone, beq_eq_decide]
  exact decide_eq_decide.2 BitVec.toNat_inj.symm

/-- The answer and the next state of a `TICK`. -/
theorem operate_tick (s : State) : operate .tick s = .next (s.doTick, .tone (decide (s.st.toNat = 1))) := by
  rw [← s.tone_eq]
  rfl

/-- Settles O45: both counts as numbers. -/
theorem tickCountsDown : Obligations.TickCountsDown := by
  intro s
  exact ⟨s.doTick, operate_tick s, countDown_toNat s.dt, countDown_toNat s.st, rfl⟩

/-- A history's first operation and then the rest. -/
theorem runOps_cons {o : Operation} {ops : List Operation} {s u t : State} {r : Response} {rs : List Response}
    (hu : operate o s = .next (u, r)) (ht : runOps ops u = .next (t, rs)) :
    runOps (o :: ops) s = .next (t, r :: rs) := by
  simp only [runOps, hu, ht]

/-- Settles O46, by induction on the number of ticks: the rest of the run counts from `ST` less one. -/
theorem oneToneOnTheLastTick : Obligations.OneToneOnTheLastTick := by
  intro n
  induction n with
  | zero => exact fun s => ⟨s, [], rfl, rfl, nofun, rfl, rfl⟩
  | succ n ih =>
    intro s
    obtain ⟨t, rs, hr, hlen, htone, hdt, hst⟩ := ih s.doTick
    simp only [State.doTick_dt, State.doTick_st, countDown_toNat] at htone hdt hst
    refine ⟨t, _, runOps_cons (operate_tick s) hr, congrArg (· + 1) hlen, fun k hk => ?_, by omega, by omega⟩
    cases k with
    | zero => simp [eq_comm]
    | succ k =>
      have hcount : k + 1 = s.st.toNat - 1 ↔ k + 1 + 1 = s.st.toNat := by omega
      rw [List.getElem?_cons_succ, htone k (Nat.lt_of_succ_lt_succ hk), decide_eq_decide.2 hcount]

/-- Settles O47: the configured order is a history of two operations. -/
theorem tickIntervalIsOneStepAndOneTick : Obligations.TickIntervalIsOneStepAndOneTick := by
  intro s
  constructor
  · intro horder
    obtain ⟨t, ht⟩ := step_answers_next s
    refine ⟨t, ht, ?_⟩
    rw [tickInterval, horder]
    exact runOps_cons (operate_step_of_next ht) rfl
  · intro horder
    obtain ⟨t, ht⟩ := step_answers_next s.doTick
    refine ⟨t, ht, ?_⟩
    rw [tickInterval, horder]
    exact runOps_cons rfl (runOps_cons (operate_step_of_next ht) rfl)

/-- Settles O48: STDT and LDDT copy the byte, and the tick between counts it down. -/
theorem timerReadsBackOneLess : Obligations.TimerReadsBackOneLess := by
  intro s x y
  obtain ⟨-, ⟨t, ht, hdt, -⟩, -⟩ := timerInstructionsCopyOneByte s x
  obtain ⟨⟨u, hu, hv, -⟩, -⟩ := timerInstructionsCopyOneByte t.doTick y
  refine ⟨t, u, ht, hu, ?_⟩
  rw [hv, State.doTick_dt, countDown_toNat, hdt]

/-! ### FB_READ (60_exceptions.md R239; 10_state.md R34) -/

/-- The snapshot is the rows of the framebuffer, one after another. -/
theorem State.snapshot_eq_flatten (s : State) : s.snapshot = s.fb.flatten.toList := by
  simp [State.snapshot, List.flatMap_def, Vector.flatten, Vector.toList, Function.comp_def]

/-- Settles O51: bit `r * 64 + c` of the rows in order is the one in row `r`, column `c`. -/
theorem snapshotIsRowMajor : Obligations.SnapshotIsRowMajor := by
  intro s
  refine ⟨s.snapshot, rfl, ?_, fun r c => ?_⟩
  · rw [State.snapshot_eq_flatten, Vector.length_toList]
  · have hrow : (r.val * 64 + c.val) / 64 = r.val := by omega
    have hcol : (r.val * 64 + c.val) % 64 = c.val := by omega
    have hlt : r.val * 64 + c.val < 32 * 64 := by omega
    rw [State.snapshot_eq_flatten, Vector.getElem?_toList, Vector.getElem?_eq_getElem hlt, Vector.getElem_flatten]
    simp only [hrow, hcol]
    rfl

end Sys2Proof.Machine

namespace Sys2Proof.Machine

/-! ### LOAD (70_reset_and_hazards.md R253; 60_exceptions.md R217) -/

/-- A `LOAD` that has a meaning stores the program, when it fits. -/
theorem doLoad_fits {bytes : List Byte} {s : State} (hfresh : s.started = false) (hrun : s.halted = false)
    (hfits : bytes.length ≤ maxProgram) : doLoad bytes s = .next (s.storeBytes progBase bytes, .done) := by
  simp [doLoad, hfresh, hrun, Nat.not_lt.2 hfits]

/-- A `LOAD` that has a meaning enters its fault, when the program is too large. -/
theorem doLoad_tooLarge {bytes : List Byte} {s : State} (hfresh : s.started = false) (hrun : s.halted = false)
    (hlarge : maxProgram < bytes.length) : doLoad bytes s = .next (raiseOutside .programTooLarge s) := by
  simp [doLoad, hfresh, hrun, hlarge]

/-- Settles O52, by whether the program fits: then it is one store at `progBase`, and otherwise a first fault. -/
theorem loadCopiesTheProgram : Obligations.LoadCopiesTheProgram := by
  intro s bytes hfresh hrun
  constructor
  · intro hfits
    refine ⟨_, doLoad_fits hfresh (halted_eq_false.2 hrun) hfits, fun k hk => ?_,
      fun a => s.readByte_storeBytes_outside progBase a bytes, rfl⟩
    exact (congrArg some (s.readByte_storeBytes_inside progBase k bytes hk)).trans (List.getElem?_eq_getElem hk).symm
  · intro hlarge
    exact (doLoad_tooLarge hfresh (halted_eq_false.2 hrun) hlarge).trans
      (congrArg _ (raiseOutside_faulted .programTooLarge hrun))

/-! ### The end of a program (70_reset_and_hazards.md R266) -/

/-- Whether a program has ended is read from memory, the parameters, `PC` and `FAULT` alone. -/
theorem State.ended.congr {s t : State} (h : s.ended) (hmem : t.mem = s.mem) (hconfig : t.config = s.config)
    (hpc : t.pc = s.pc) (hfault : t.fault = s.fault) : t.ended := by
  obtain ⟨hrun, op, hop, hd⟩ := h
  refine ⟨?_, op, (State.fetch_congr hmem hconfig hpc).trans hop, hpc ▸ hd⟩
  rwa [State.halted, hfault]

theorem State.ended.doTick {s : State} (h : s.ended) : s.doTick.ended := h.congr rfl rfl rfl rfl

/-- The `STEP` of an ended program executes its jump: a commit of the `PC` it already has. -/
theorem State.ended.operate_step {s : State} (h : s.ended) :
    operate .step s = .next (s.commit s.pc, .executed) := by
  obtain ⟨hrun, op, hop, hd⟩ := h
  have hs : step s = .next (s.commit s.pc) := (step_executes hrun hop hd).trans (complete_eq s s.pc)
  rw [operate_step_of_next hs, stepResponse_commit s.pc hrun rfl]

/-- Settles O60: the step and the tick keep all that the end of a program is read from. -/
theorem endedProgramStaysEnded : Obligations.EndedProgramStaysEnded := by
  intro s h
  have hcommit : (s.commit s.pc).ended := h.congr rfl rfl rfl rfl
  exact ⟨s.commit s.pc, h.operate_step, rfl, hcommit, hcommit.doTick⟩

end Sys2Proof.Machine
